-- ==== Sys2Proof/Word.lean ====
section
/-! DEFINITION. The words, bytes and bit sequences of the block (00_scope R8, R9, 30_encoding R71). -/

namespace Sys2Proof

/-- One bit of a bit sequence: `true` is 1 (R9). -/
abbrev Bit := Bool

/-- A payload element (R7, D30). -/
abbrev Byte := BitVec 8

/-- A command word or a response word (R70). -/
abbrev Word := BitVec 32

/-- A finite bit sequence, index 0 first (R9). -/
abbrev Bits := List Bit

/-- A frame is the bit sequence preamble, body, postamble (R12). -/
abbrev Frame := Bits

end Sys2Proof
end

