-- ==== Sys2Proof/Config.lean ====
section
/-! DEFINITION. The construction-time configuration (10_state R22, R23, 00_scope R7) and the free values. -/

namespace Sys2Proof

/-- The value of `frame_tag_name`: opaque to the block (D4). DESIGN CHOICE (log 3): held as a string. -/
structure TagKey where
  name : String
  deriving DecidableEq, Repr, Inhabited

/-- The origin identity: opaque to the block (D4). DESIGN CHOICE (log 3): held as a string. -/
structure OriginId where
  name : String
  deriving DecidableEq, Repr, Inhabited

/-- The configuration record of R22 together with the implementation parameters of R7 that the source leaves
open. `none` is `unbounded`. No command writes any of it. -/
structure Config where
  txDelay         : Nat
  tagKey          : TagKey
  originId        : OriginId
  txdMax          : Option Nat
  maxPayloadBytes : Option Nat
  backlogDepth    : Nat
  deriving DecidableEq, Repr

/-- Free value (log 2): the `tx_delay` the block of State.reset was constructed with. -/
opaque Config.builtTxDelay : Nat

/-- Free value (log 2): the tag key the block of State.reset was constructed with. -/
opaque Config.builtTagKey : TagKey

/-- Free value (log 2): the origin identity the block of State.reset was constructed with. -/
opaque Config.builtOriginId : OriginId

/-- Free value (log 8): what cell `k` of the egress buffer holds after the faulted PRODUCE number `n`
(R56, R183, I3: any value). -/
opaque Config.abortedCell : (n k : Nat) → Bit

/-- The configuration of State.reset: free where R7 says "per instance", R7's default elsewhere. -/
def Config.built : Config where
  txDelay         := Config.builtTxDelay
  tagKey          := Config.builtTagKey
  originId        := Config.builtOriginId
  txdMax          := none
  maxPayloadBytes := none
  backlogDepth    := 1

end Sys2Proof
end

