-- ==== Sys2Proof/Syntax.lean ====
section
/-! DEFINITION. The commands of the block (30_encoding R71, R72), the reasons a word is reserved (R75) and a line
of the assembly language (R79). -/

namespace Sys2Proof

/-- The two commands of spec/opcode_table.json. -/
inductive Instr where
  /-- `PRODUCE cap`: `IMM28` is the capacity in bits (R72, R73). -/
  | produce (imm : BitVec 28)
  /-- `RESET`: no operand (R74). -/
  | reset
  deriving DecidableEq, Repr

/-- Why a command word has no meaning (R75). -/
inductive Reserved where
  /-- `OPC` is 0 or 3 to 15. -/
  | opcode (opc : BitVec 4)
  /-- A RESET word whose `IMM28` is not zero (R74). -/
  | resetOperand (imm : BitVec 28)
  deriving DecidableEq, Repr

/-- One command in assembly language (R79), its number not yet checked against its range. -/
inductive AsmLine where
  | produce (cap : Nat)
  | reset
  deriving DecidableEq, Repr

end Sys2Proof
end

