-- ==== Sys2Proof/WellFormed.lean ====
section
/-! DEFINITION. The checks: which configurations construct a block (10_state R23), which assembly lines name a
command (30_encoding R79), which instructions are well formed. -/

namespace Sys2Proof

/-- The largest capacity, 2^28 - 1 (R73, R79). -/
def capMax : Nat := 268435455

/-- `tx_delay` is at most `TXD_MAX` where that is bounded (R23; a negative one cannot be written). -/
def Config.txDelayOk (c : Config) : Bool :=
  match c.txdMax with
  | none => true
  | some m => decide (c.txDelay ≤ m)

/-- `BACKLOG_DEPTH` is at least 1 (R7). -/
def Config.depthOk (c : Config) : Bool := decide (1 ≤ c.backlogDepth)

/-- A configuration that constructs a block (R23, R7). -/
def Config.wellFormed (c : Config) : Bool := c.txDelayOk && c.depthOk

/-- A capacity is in the range R79 gives. -/
def AsmLine.wellFormed : AsmLine → Bool
  | .produce cap => decide (cap ≤ capMax)
  | .reset => true

/-- An instruction is well formed when its operand is in its range (R73, R74): its type already says so. -/
def Instr.wellFormed : Instr → Bool
  | .produce imm => decide (imm.toNat ≤ capMax)
  | .reset => true

end Sys2Proof
end

