-- ==== Sys2Proof/Decode.lean ====
section
/-! DEFINITION. The decoder and the encoder of format C (30_encoding R71 to R75, R81) and the assembler (R79). -/

namespace Sys2Proof

/-- `CMD[31:28]` (R71). -/
def opcField (w : Word) : BitVec 4 := w.extractLsb' 28 4

/-- `CMD[27:0]` (R71). -/
def immField (w : Word) : BitVec 28 := w.extractLsb' 0 28

/-- The decoder: total on every word, by the word alone (R72, R74, R75, R81). -/
def decode (w : Word) : Except Reserved Instr :=
  if opcField w = 0x1#4 then .ok (.produce (immField w))
  else if opcField w = 0x2#4 then
    if immField w = 0#28 then .ok .reset else .error (.resetOperand (immField w))
  else .error (.opcode (opcField w))

/-- The encoder (R71, R72): the opcode above the operand. -/
def encode : Instr → Word
  | .produce imm => 0x1#4 ++ imm
  | .reset => 0x2#4 ++ 0#28

/-- The command word whose low `nbits` bits are those of `w` and whose other bits are 0. -/
def tableWord (nbits w : Nat) : Word := BitVec.ofNat 32 (w % 2 ^ nbits)

/-- The instruction the decoder reads from a word given as spec/opcode_table.json numbers its bits. -/
def decodeTableWord (nbits w : Nat) : Option Instr :=
  match decode (tableWord nbits w) with
  | .ok i => some i
  | .error _ => none

/-- What an assembly line assembles to: `0x10000000 | cap` or `0x20000000`; nothing if its number is out of
range (R79). -/
def assemble : AsmLine → Option Word
  | .produce cap => if cap ≤ capMax then some (0x10000000#32 ||| BitVec.ofNat 32 cap) else none
  | .reset => some 0x20000000#32

/-- The value of a decimal or (upper or lower case) hexadecimal digit. -/
def digitValue (c : Char) : Option Nat :=
  if '0' ≤ c ∧ c ≤ '9' then some (c.toNat - 48)
  else if 'A' ≤ c ∧ c ≤ 'F' then some (c.toNat - 55)
  else if 'a' ≤ c ∧ c ≤ 'f' then some (c.toNat - 87)
  else none

/-- The number that a digit string continues to after the value `acc`, in the base `base`. -/
def parseDigits (base : Nat) : Nat → List Char → Option Nat
  | acc, [] => some acc
  | acc, c :: cs =>
    match digitValue c with
    | some d => if d < base then parseDigits base (base * acc + d) cs else none
    | none => none

/-- A decimal number, or a hexadecimal one with the prefix `0x` (R79). -/
def parseNumber : List Char → Option Nat
  | [] => none
  | '0' :: 'x' :: [] => none
  | '0' :: 'x' :: cs => parseDigits 16 0 cs
  | cs => parseDigits 10 0 cs

/-- A blank between the words of a line. DESIGN CHOICE (log 12): a space or a tab. -/
def isBlank (c : Char) : Bool := c == ' ' || c == '\t'

/-- The words of a line up to its comment, which a `;` starts (R79). -/
def asmWords : List Char → List (List Char)
  | [] => []
  | c :: cs =>
    if c == ';' then []
    else if isBlank c then [] :: asmWords cs
    else
      match asmWords cs with
      | [] => [[c]]
      | w :: ws => (c :: w) :: ws

/-- The assembly line that a line of text spells (R79). Upper-case mnemonics only; one command a line. -/
def parseAsm (line : List Char) : Option AsmLine :=
  match (asmWords line).filter (fun w => !w.isEmpty) with
  | [['R', 'E', 'S', 'E', 'T']] => some .reset
  | [['P', 'R', 'O', 'D', 'U', 'C', 'E'], n] => (parseNumber n).map .produce
  | _ => none

end Sys2Proof
end

