-- ==== Sys2Proof/Machine/State.lean ====
section
/-! DEFINITION. The state of the block and of its environment (10_state R20 to R35), as plain data. -/

namespace Sys2Proof.Machine

/-- An item of the payload source (30_encoding R78). -/
inductive Item where
  /-- A raw byte blob with its optional length hint, which the block ignores (D13). -/
  | blob (hint : Option Nat) (bytes : List Byte)
  /-- An item of any other shape (60_exceptions R180). -/
  | malformed
  deriving DecidableEq, Repr

/-- A boundary annotation (30_encoding R77, 44_produce R152). -/
structure Annotation where
  offset : Nat
  length : Nat
  key    : TagKey
  srcid  : OriginId
  deriving DecidableEq, Repr

/-- A region of the egress buffer that a faulted PRODUCE left unspecified: the cells below `bound` (R56, R183).
`tag` says which fault it was and selects the free values of the cells. -/
structure Spoil where
  tag   : Nat
  bound : Nat
  deriving DecidableEq, Repr

/-- The egress buffer OUT (10_state R34, 20_memory R50): one-bit cells, indexed from 0.
`cells` lists the cells whose bit is known, indices strictly rising. An unlisted cell in a region of `spoils`
(newest first, bounds strictly rising) holds a free value; any other unlisted cell holds whatever the driver left
there, and the model has no value for it (log 7, log 8). -/
structure Egress where
  cells  : List (Nat × Bit)
  spoils : List Spoil
  deriving DecidableEq, Repr

/-- A move of the world outside the block (00_scope R6, 60_exceptions R194). -/
inductive HostMove where
  /-- The driver issues a command word on the command port (R70). -/
  | command (w : Word)
  /-- The host appends an item to the payload source (R57). -/
  | append (item : Item)
  /-- The driver supplies an egress buffer, in which the cells of the list hold the bits given (R202). -/
  | supply (cells : List (Nat × Bit))
  deriving DecidableEq, Repr

/-- The transient values of one PRODUCE (10_state R32): `OFF`, `ANN`, and the egress buffer written so far. -/
structure Emission where
  off : Nat
  ann : List Annotation
  out : Egress
  deriving DecidableEq, Repr

/-- The scheduler state (10_state R29), a function of the backlog. -/
inductive Sched where
  | draining
  | idle
  deriving DecidableEq, Repr

/-- The state. `cfg` is the constructed configuration, which no step writes (R22). `backlog`, `fault`, `fcode` and
the model-only mark `refused` are R35's. `rsp` and `ann` are what the last command returned (R70, R76, R77); `rsp`
is `none` when no command has answered yet and after a word that gets no response (R75, log 5). `src` and `out` are
the environment's (R34). `host` holds the moves of the driver and the source still to come, oldest first (log 1),
and `aborts` counts the faults, to select free values (log 8): these two are the model's own. -/
structure State where
  cfg     : Config
  backlog : List Frame
  fault   : Bool
  fcode   : BitVec 2
  refused : Bool
  rsp     : Option Word
  ann     : List Annotation
  src     : List Item
  out     : Egress
  host    : List HostMove
  aborts  : Nat
  deriving DecidableEq, Repr

/-- Why the machine stops with a fault: never. The block's fault entry (60_exceptions R183) is a next state with
`fault` set, and no rule of the spec stops the block; so this type has no constructor, and every claim about
faults is about the field `fault`. -/
inductive Fault
  deriving DecidableEq, Repr

/-- Why a refusal. -/
inductive Refusal where
  /-- Raised by an arm of exec that has no meaning yet; safe. No arm raises it now. -/
  | notModelled (mnemonic : String)
  /-- Raised by `State.construct` for a configuration that constructs no block (10_state R23, 70_reset R200); safe:
  no step raises it. -/
  | illegalConfig
  deriving DecidableEq, Repr

/-- The buffer of which no cell is known. -/
def Egress.empty : Egress := { cells := [], spoils := [] }

/-- The values construction gives (10_state R35, 70_reset R200), with the environment not yet connected
(log 5, 6, 7). -/
def State.initial (c : Config) : State where
  cfg     := c
  backlog := []
  fault   := false
  fcode   := 0b00#2
  refused := false
  rsp     := none
  ann     := []
  src     := []
  out     := Egress.empty
  host    := []
  aborts  := 0

/-- The block right after construction with the configuration `Config.built` (R35, R200). -/
def State.reset : State := State.initial Config.built

end Sys2Proof.Machine
end

