-- ==== Sys2Proof/Machine/Flags.lean ====
section
/-! DEFINITION. The scheduler state (10_state R29) and the fields of the response word (30_encoding R76). -/

namespace Sys2Proof.Machine

/-- `SCHED` (R29). -/
def State.sched (s : State) : Sched := if s.backlog = [] then .idle else .draining

/-- `DRAINING`, the bit that reports `SCHED` (R29, R76). -/
def State.draining (s : State) : Bool := s.sched == .draining

/-- The response word from its fields, FCODE[31:30], FAULT[29], DRAINING[28], N[27:0] (R76). -/
def rspWord (fcode : BitVec 2) (fault draining : Bool) (n : BitVec 28) : Word :=
  fcode ++ (BitVec.ofBool fault ++ (BitVec.ofBool draining ++ n))

/-- `RSP[27:0]` (R76). -/
def rspN (r : Word) : BitVec 28 := r.extractLsb' 0 28

/-- `RSP[28]` (R76). -/
def rspDraining (r : Word) : Bool := r.getLsbD 28

/-- `RSP[29]` (R76). -/
def rspFault (r : Word) : Bool := r.getLsbD 29

/-- `RSP[31:30]` (R76). -/
def rspFcode (r : Word) : BitVec 2 := r.extractLsb' 30 2

end Sys2Proof.Machine
end

