-- ==== Sys2Proof/Machine/Operands.lean ====
section
/-! DEFINITION. The operand of PRODUCE (30_encoding R73), the fit test (44_produce R141), the length limit on a
payload (00_scope R7) and the fault codes (60_exceptions R180). -/

namespace Sys2Proof.Machine

/-- `cap = zext_32(CMD[27:0])`, unsigned, not scaled (R73). -/
def capacity (imm : BitVec 28) : Nat := (imm.setWidth 32).toNat

/-- A frame of `len` bits fits when `len ≤ cap - OFF`; equality fits (R141). -/
def fits (cap off len : Nat) : Bool := decide (len ≤ cap - off)

/-- `MAX_PAYLOAD_BYTES` is bounded and the payload is longer than it (R180). -/
def tooLong (cfg : Config) (p : List Byte) : Bool :=
  match cfg.maxPayloadBytes with
  | none => false
  | some m => decide (m < p.length)

/-- `MALFORMED_PAYLOAD` (R180). -/
def codeMalformed : BitVec 2 := 0b01#2

/-- `PAYLOAD_TOO_LONG` (R180). -/
def codeTooLong : BitVec 2 := 0b10#2

end Sys2Proof.Machine
end

