-- ==== Sys2Proof/Machine/Ops.lean ====
section
/-! DEFINITION. The named operations: the cells of the egress buffer (20_memory R50 to R56), the pull (30_encoding
R78), emitting a frame (44_produce R144), responding (R146), fault entry (60_exceptions R183), construction
(70_reset R200), the moves of the host (R57, R202) and the mark of a reserved word (30_encoding R75). -/

namespace Sys2Proof.Machine

/-! The egress buffer. -/

/-- The bit listed for cell `k`. -/
def cellAt : List (Nat × Bit) → Nat → Option Bit
  | [], _ => none
  | (i, v) :: cs, k => if i = k then some v else cellAt cs k

/-- The list with `v` at cell `k`, strictly rising if it was. -/
def setCell : List (Nat × Bit) → Nat → Bit → List (Nat × Bit)
  | [], k, v => [(k, v)]
  | (i, w) :: cs, k, v =>
    if k < i then (k, v) :: (i, w) :: cs
    else if k = i then (k, v) :: cs
    else (i, w) :: setCell cs k v

/-- The bits of `v` at the cells `off`, `off + 1`, ... (R144). -/
def setCells : List (Nat × Bit) → Nat → Bits → List (Nat × Bit)
  | cs, _, [] => cs
  | cs, off, v :: vs => setCells (setCell cs off v) (off + 1) vs

/-- The newest unspecified region that holds cell `k`. -/
def spoilAt : List Spoil → Nat → Option Spoil
  | [], _ => none
  | r :: rs, k => if k < r.bound then some r else spoilAt rs k

/-- What an unlisted cell reads as: a free value where a fault left it unspecified (R56, log 8), otherwise no value,
because only the driver knows what it left there (log 7). -/
def Egress.unlisted (e : Egress) (k : Nat) : Option Bit :=
  match spoilAt e.spoils k with
  | some r => some (Config.abortedCell r.tag k)
  | none => none

/-- What the driver reads in cell `k`. The block itself never reads OUT (R50). -/
def Egress.read (e : Egress) (k : Nat) : Option Bit :=
  match cellAt e.cells k with
  | some v => some v
  | none => e.unlisted k

/-- `OutWrite(off, v)` (R11, R55). -/
def Egress.write (e : Egress) (off : Nat) (v : Bits) : Egress :=
  { e with cells := setCells e.cells off v }

/-- A faulted PRODUCE of capacity `cap` leaves OUT[0 .. cap-1] unspecified (R56, R183); `tag` is fresh. -/
def Egress.abort (e : Egress) (tag cap : Nat) : Egress :=
  if cap = 0 then e
  else
    { cells := e.cells.filter (fun c => decide (cap ≤ c.1)),
      spoils := ⟨tag, cap⟩ :: e.spoils.filter (fun r => decide (cap < r.bound)) }

/-- Every cell of the list set to its bit, in the list's order. -/
def setListed : List (Nat × Bit) → List (Nat × Bit) → List (Nat × Bit)
  | cs, [] => cs
  | cs, c :: ds => setListed (setCell cs c.1 c.2) ds

/-- The buffer a driver supplies, in which the cells of the list hold the bits given (R202). -/
def Egress.ofDriver (ds : List (Nat × Bit)) : Egress := { cells := setListed [] ds, spoils := [] }

/-- The indices of a list of cells are strictly rising. -/
def risingCells : List (Nat × Bit) → Bool
  | [] => true
  | [_] => true
  | a :: b :: cs => decide (a.1 < b.1) && risingCells (b :: cs)

/-- The bounds of a list of regions are strictly rising from the newest on. -/
def risingSpoils : List Spoil → Bool
  | [] => true
  | [r] => decide (0 < r.bound)
  | a :: b :: rs => decide (0 < a.bound) && decide (a.bound < b.bound) && risingSpoils (b :: rs)

/-- The canonical form of the egress buffer. -/
def Egress.wf (e : Egress) : Bool := risingCells e.cells && risingSpoils e.spoils

/-- The cells `off`, ..., `off + n - 1` of the buffer that have a value, in index order. -/
def Egress.readRange (e : Egress) : (off n : Nat) → Bits
  | _, 0 => []
  | off, n + 1 =>
    match e.read off with
    | some v => v :: e.readRange (off + 1) n
    | none => e.readRange (off + 1) n

/-! The payload source. -/

/-- `SourcePull()`: the head of the source, which it removes, or nothing when no item is ready (R57, R78). -/
def sourcePull (s : State) : Option Item × State :=
  match s.src with
  | [] => (none, s)
  | item :: rest => (some item, { s with src := rest })

/-! Inside one PRODUCE. -/

/-- The transients at the start of a command: `OFF = 0`, `ANN = []` (R32). -/
def Emission.start (s : State) : Emission := { off := 0, ann := [], out := s.out }

/-- `Annotate(off, n)`'s record (R11, R152). -/
def annotation (cfg : Config) (off len : Nat) : Annotation :=
  { offset := off, length := len, key := cfg.tagKey, srcid := cfg.originId }

/-- `EmitFrame(f)`: write the frame at `OFF`, annotate it, advance `OFF` (R144). -/
def emitFrame (cfg : Config) (f : Frame) (e : Emission) : Emission where
  off := e.off + f.length
  ann := e.ann ++ [annotation cfg e.off f.length]
  out := e.out.write e.off f

/-- The emission becomes what the command returns (R146). -/
def deliver (e : Emission) (s : State) : State := { s with ann := e.ann, out := e.out }

/-- `respond(n)`: the response word, from the state after the command (R146, R76). -/
def respond (n : Nat) (s : State) : State :=
  { s with rsp := some (rspWord s.fcode s.fault s.draining (BitVec.ofNat 28 n)) }

/-- `raise Fault(code)` in a PRODUCE of capacity `cap` (R183): the fault is recorded, nothing of the command is
returned, and OUT[0 .. cap-1] is unspecified. -/
def raiseFault (code : BitVec 2) (cap : Nat) (s : State) : State :=
  respond 0 { s with
    fault := true, fcode := code, ann := [], out := s.out.abort s.aborts cap, aborts := s.aborts + 1 }

/-- The bits the last command returned, `OUT[0 .. N-1]` (R140, R146); none without a response. -/
def State.returned (s : State) : Bits :=
  match s.rsp with
  | some r => s.out.readRange 0 (rspN r).toNat
  | none => []

/-! The world outside. -/

/-- Construction (70_reset R200): a legal configuration gives the block of R35, an illegal one gives none (R23). -/
def State.construct (c : Config) : Host.Outcome State Fault Refusal :=
  if c.wellFormed then .next (State.initial c) else .refused .illegalConfig

/-- The port takes a command: the moves still to come are `rest`, and the returns of the command before are gone. -/
def State.accept (s : State) (rest : List HostMove) : State :=
  { s with host := rest, rsp := none, ann := [] }

/-- A reserved word: the mark is set, with no other effect and no response (R75). -/
def refuseWord (s : State) : State := { s with refused := true }

/-- The host appends an item to the source, between commands (R57). -/
def appendItem (item : Item) (rest : List HostMove) (s : State) : State :=
  { s with host := rest, src := s.src ++ [item] }

/-- The driver supplies an egress buffer (R202). -/
def supplyBuffer (cells : List (Nat × Bit)) (rest : List HostMove) (s : State) : State :=
  { s with host := rest, out := Egress.ofDriver cells }

end Sys2Proof.Machine
end

