-- ==== Sys2Proof/Machine/Control.lean ====
section
/-! DEFINITION. RESET (45_control R170). -/

namespace Sys2Proof.Machine

/-- RESET (R170): back to the values of construction. The configuration, the mark `refused`, the source and the
egress buffer are untouched; the response is 0 and there are no annotations. -/
def execReset (s : State) : Host.Outcome State Fault Refusal :=
  .next { s with backlog := [], fault := false, fcode := 0b00#2, rsp := some 0x00000000#32, ann := [] }

end Sys2Proof.Machine
end

