-- ==== Sys2Proof/Machine/Datapath.lean ====
section
/-! DEFINITION. The datapath, leaves first: CRC16 (40_crc R90), UNPACK (41_unpack R100), STUFF (42_stuff R110), the
templates (10_state R24 to R26) and BUILD (43_frame_builder R120). -/

namespace Sys2Proof.Machine

/-- The reflected polynomial (R7, R92). -/
def crcPoly : BitVec 16 := 0x8408#16

/-- One shift of the CRC register `R` (R90). -/
def crcShift (r : BitVec 16) : BitVec 16 :=
  if r.getLsbD 0 then (r >>> 1) ^^^ crcPoly else r >>> 1

/-- `n` shifts of the CRC register. -/
def crcShifts : Nat → BitVec 16 → BitVec 16
  | 0, r => r
  | n + 1, r => crcShifts n (crcShift r)

/-- One byte into the CRC register: XOR into the low byte, then 8 shifts (R90). -/
def crcByte (r : BitVec 16) (b : Byte) : BitVec 16 := crcShifts 8 (r ^^^ b.setWidth 16)

/-- The CRC register after the bytes of `d`, in index order, before the final complement (R90). -/
def crcRegister (d : List Byte) : BitVec 16 := d.foldl crcByte 0xFFFF#16

/-- CRC16 (R90). -/
def crc16 (d : List Byte) : BitVec 16 := ~~~ crcRegister d

/-- A 16-bit value as two bytes, low byte first (R52). -/
def crcBytes (c : BitVec 16) : List Byte := [c.extractLsb' 0 8, c.extractLsb' 8 8]

/-- The bits of one byte, least significant first (R51). -/
def unpackByte (b : Byte) : Bits :=
  [b.getLsbD 0, b.getLsbD 1, b.getLsbD 2, b.getLsbD 3, b.getLsbD 4, b.getLsbD 5, b.getLsbD 6, b.getLsbD 7]

/-- UNPACK (R100). -/
def unpack : List Byte → Bits
  | [] => []
  | b :: d => unpackByte b ++ unpack d

/-- The length of a run of ones that gets a zero inserted after it (R7, R110). -/
def stuffRun : Nat := 5

/-- STUFF from the run counter `c` on (R110). An inserted bit is not scanned (R111). -/
def stuffFrom : Nat → Bits → Bits
  | _, [] => []
  | c, true :: b =>
    if c + 1 = stuffRun then true :: false :: stuffFrom 0 b else true :: stuffFrom (c + 1) b
  | _, false :: b => false :: stuffFrom 0 b

/-- STUFF: one pass, the run counter starting at 0 (R110). -/
def stuff (b : Bits) : Bits := stuffFrom 0 b

/-- The flag `0111 1110` (R24). -/
def flag : Bits := [false, true, true, true, true, true, true, false]

/-- `PRE`, the preamble template: `tx_delay` idle zeros and the flag (R25). -/
def preamble (cfg : Config) : Bits := List.replicate cfg.txDelay false ++ flag

/-- `POST`, the postamble template (R26). -/
def postamble : Bits := flag

/-- The frame body of a payload: the payload and its CRC, unpacked and stuffed in one pass (R120, R123). -/
def frameBody (p : List Byte) : Bits := stuff (unpack (p ++ crcBytes (crc16 p)))

/-- BUILD (R120). -/
def build (cfg : Config) (p : List Byte) : Frame := preamble cfg ++ frameBody p ++ postamble

end Sys2Proof.Machine
end

