-- ==== Sys2Proof/Machine/Produce.lean ====
section
/-! DEFINITION. PRODUCE (44_produce R140 to R154). -/

namespace Sys2Proof.Machine

/-- The drain phase (R142): frames leave the front of the backlog whole while they fit. The result is what stays in
the backlog and what was emitted. -/
def drain (cfg : Config) (cap : Nat) : List Frame → Emission → List Frame × Emission
  | [], e => ([], e)
  | f :: fs, e =>
    if fits cap e.off f.length then drain cfg cap fs (emitFrame cfg f e) else (f :: fs, e)

/-- A built frame is emitted if it fits and queued at the back of the backlog if not (R143, R145). -/
def emitOrQueue (cap : Nat) (f : Frame) (e : Emission) (s : State) : State :=
  if fits cap e.off f.length then
    respond (emitFrame s.cfg f e).off (deliver (emitFrame s.cfg f e) s)
  else
    respond e.off (deliver e { s with backlog := s.backlog ++ [f] })

/-- The fetch phase (R143): one pull, then the shape check, the length check and BUILD, in that order (R186). -/
def fetch (cap : Nat) (e : Emission) (s : State) : State :=
  match sourcePull s with
  | (none, s) => respond e.off (deliver e s)
  | (some .malformed, s) => raiseFault codeMalformed cap s
  | (some (.blob _ p), s) =>
    if tooLong s.cfg p then raiseFault codeTooLong cap s else emitOrQueue cap (build s.cfg p) e s

/-- PRODUCE with capacity `cap` while the block is not faulted (R140): the fetch phase is reached only with an empty
backlog (R153). -/
def produceLive (cap : Nat) (s : State) : State :=
  match drain s.cfg cap s.backlog (Emission.start s) with
  | ([], e) => fetch cap e { s with backlog := [] }
  | (f :: fs, e) => respond e.off (deliver e { s with backlog := f :: fs })

/-- PRODUCE (R140). While `FAULT` is 1 it does nothing but respond (R150). -/
def execProduce (imm : BitVec 28) (s : State) : Host.Outcome State Fault Refusal :=
  if s.fault then .next (respond 0 { s with ann := [] })
  else .next (produceLive (capacity imm) s)

end Sys2Proof.Machine
end

