-- ==== Sys2Proof/Machine/Dispatch.lean ====
section
/-! DEFINITION. One arm per command of spec/opcode_table.json. -/

namespace Sys2Proof.Machine

def exec (i : Instr) (s : State) : Host.Outcome State Fault Refusal :=
  match i with
  | .produce imm => Sys2Proof.Machine.execProduce imm s
  | .reset => Sys2Proof.Machine.execReset s

end Sys2Proof.Machine
end

