-- ==== Sys2Proof/Machine/Step.lean ====
section
/-! DEFINITION. One step: the next move of the world outside, and the block's answer to it (00_scope R6, 20_memory
R60). -/

namespace Sys2Proof.Machine

/-- One step. With no move to come the block is idle and keeps its state (60_exceptions R193). A command is decoded
from its word alone (30_encoding R81) and runs atomically; a reserved word leaves only the mark (R75). -/
def step (s : State) : Host.Outcome State Fault Refusal :=
  match s.host with
  | [] => .next s
  | .command w :: rest =>
    match decode w with
    | .ok i => exec i (s.accept rest)
    | .error _ => .next (refuseWord (s.accept rest))
  | .append item :: rest => .next (appendItem item rest s)
  | .supply cells :: rest => .next (supplyBuffer cells rest s)

/-- The driver is about to issue the command word whose bits are `w`: the very next step runs it. -/
def State.withFetchWord (s : State) (nbits w : Nat) : State :=
  { s with host := .command (tableWord nbits w) :: s.host }

end Sys2Proof.Machine
end

