-- ==== Sys2Proof/Safety.lean ====
section
/-! DEFINITION. What counts as a safe run, the invariant, and the terms the claims use: what a PRODUCE leaves, the
traces of a run, and the run lengths and the receiver of 42_stuff R113. -/

namespace Sys2Proof.Machine

/-! Safe runs. -/

/-- A state no claim of a good run is refuted by: not faulted (60_exceptions R185) and no reserved word met
(10_state R31). The mark `refused` is never cleared, so a run that ends clean met no reserved word. -/
def State.clean (s : State) : Prop := s.fault = false ∧ s.refused = false

/-- The word of the RESET command (R74). -/
def resetWord : Word := 0x20000000#32

/-- None of the first `k` moves to come is a RESET. -/
def State.noReset (k : Nat) (s : State) : Prop := HostMove.command resetWord ∉ s.host.take k

/-! What a PRODUCE leaves. -/

/-- The annotations of frames that lie one after the other from `off` on (44_produce R144, R152). -/
def layout (cfg : Config) : Nat → List Frame → List Annotation
  | _, [] => []
  | off, f :: fs => annotation cfg off f.length :: layout cfg (off + f.length) fs

/-- The state after a PRODUCE without a fault that emitted the frames `fs`, with what stays in the backlog and in
the source (44_produce R146, 30_encoding R76). -/
def State.emitted (s : State) (fs backlog : List Frame) (src : List Item) : State :=
  { s with
    backlog := backlog, src := src, ann := layout s.cfg 0 fs, out := s.out.write 0 fs.flatten,
    rsp := some (rspWord s.fcode s.fault (!backlog.isEmpty) (BitVec.ofNat 28 fs.flatten.length)) }

/-- The state after a PRODUCE of capacity `cap` that took the fault `code` (60_exceptions R183): RSP.N and
RSP.DRAINING are 0. -/
def State.faulted (s : State) (code : BitVec 2) (cap : Nat) (src : List Item) : State :=
  { s with
    backlog := [], src := src, fault := true, fcode := code, ann := [], rsp := some (rspWord code true false 0#28),
    out := s.out.abort s.aborts cap, aborts := s.aborts + 1 }

/-! The invariant. -/

/-- Annotations that lie one after the other from `off` on, with the configured key and identity, each of at least
the length of the shortest frame (R77, R144, R147, R152). -/
def contiguous (cfg : Config) : Nat → List Annotation → Prop
  | _, [] => True
  | off, a :: as =>
    a.offset = off ∧ a.key = cfg.tagKey ∧ a.srcid = cfg.originId ∧ cfg.txDelay + 32 ≤ a.length ∧
      contiguous cfg (off + a.length) as

/-- The frames a block of this configuration builds: BUILD of a payload within the limit (10_state R27). -/
def IsFrame (cfg : Config) (f : Frame) : Prop := ∃ p, tooLong cfg p = false ∧ f = build cfg p

/-- What holds in every state a run reaches. -/
structure Invariant (s : State) : Prop where
  /-- A legal configuration (R23). -/
  legal : s.cfg.wellFormed = true
  /-- At most one frame is queued (R28). -/
  depth : s.backlog.length ≤ 1
  /-- Each is a complete frame as produced by BUILD (R27). -/
  frames : ∀ f ∈ s.backlog, IsFrame s.cfg f
  /-- FCODE names a cause exactly when FAULT is set; it is never 0b11 (R180). -/
  cause : (s.fault = false ∧ s.fcode = 0b00#2) ∨
    (s.fault = true ∧ (s.fcode = codeMalformed ∨ (s.fcode = codeTooLong ∧ s.cfg.maxPayloadBytes ≠ none)))
  /-- A faulted block has an empty backlog (R183, R184). -/
  faultedEmpty : s.fault = true → s.backlog = []
  /-- A response reports the state (R76), and its N is the total length of the annotated frames (R146). -/
  answered : ∀ r, s.rsp = some r →
    rspFcode r = s.fcode ∧ rspFault r = s.fault ∧ rspDraining r = s.draining ∧
      (rspN r).toNat = (s.ann.map Annotation.length).sum
  /-- Without a response there are no annotations (R75). -/
  silent : s.rsp = none → s.ann = []
  /-- At most two annotations (R147), contiguous from offset 0 (R144). -/
  annCount : s.ann.length ≤ 2
  annPlace : contiguous s.cfg 0 s.ann
  /-- The egress buffer is in its canonical form. -/
  buffer : s.out.wf = true
  /-- The free values of the next fault are fresh. -/
  fresh : ∀ r ∈ s.out.spoils, r.tag < s.aborts

/-! Traces. -/

/-- The frame of an item, where it has one. -/
def itemFrame (cfg : Config) : Item → Option Frame
  | .blob _ p => some (build cfg p)
  | .malformed => none

/-- The frames of the payloads that left the source between `s` and `t`, in pull order. -/
def pulledFrames (s t : State) : List Frame :=
  (s.src.take (s.src.length - t.src.length)).filterMap (itemFrame s.cfg)

/-- The bits a step from `s` to `t` returns to the driver: those of a command (R146). -/
def stepOutput (s t : State) : Bits :=
  match s.host with
  | .command _ :: _ => t.returned
  | _ => []

/-- The frames of the payloads a step from `s` to `t` pulls: a command's (R57). -/
def stepBuilt (s t : State) : List Frame :=
  match s.host with
  | .command _ :: _ => pulledFrames s t
  | _ => []

/-- The concatenation of the outputs of the first `k` steps (20_memory R61). -/
def runOutput : Nat → State → Bits
  | 0, _ => []
  | k + 1, s =>
    match step s with
    | .next t => stepOutput s t ++ runOutput k t
    | _ => []

/-- The frames built in the first `k` steps, in pull order (20_memory R61). -/
def runBuilt : Nat → State → List Frame
  | 0, _ => []
  | k + 1, s =>
    match step s with
    | .next t => stepBuilt s t ++ runBuilt k t
    | _ => []

/-! The vocabulary of 42_stuff R112 to R114. -/

/-- The run counter of STUFF after the bits `b`, from `c` on (R110). -/
def counterFrom : Nat → Bits → Nat
  | c, [] => c
  | c, true :: b => if c + 1 = stuffRun then counterFrom 0 b else counterFrom (c + 1) b
  | _, false :: b => counterFrom 0 b

/-- The lengths of the maximal runs of ones, the one being counted having `c` ones so far; an empty run between two
zeros counts as 0 (R113 law 2). -/
def onesRuns : Nat → Bits → List Nat
  | c, [] => [c]
  | c, true :: b => onesRuns (c + 1) b
  | c, false :: b => c :: onesRuns 0 b

/-- The zero that follows each run of five ones deleted, scanning left to right (R113 law 4). -/
def unstuffFrom : Nat → Bits → Bits
  | _, [] => []
  | c, true :: b => true :: unstuffFrom (c + 1) b
  | c, false :: b => if c = stuffRun then unstuffFrom 0 b else false :: unstuffFrom 0 b

/-- `n` ones. -/
def ones (n : Nat) : Bits := List.replicate n true

/-- The flag occurs in `f` at offset `k` (43_frame_builder R122). -/
def flagAt (f : Bits) (k : Nat) : Prop := (f.drop k).take 8 = flag

/-- Six ones in a row occur in `f` at offset `k` (R122). -/
def sixOnesAt (f : Bits) (k : Nat) : Prop := (f.drop k).take 6 = ones 6

end Sys2Proof.Machine
end

