-- ==== Sys2Proof/Certificates/Slice0/Obligations.lean ====
section
/-! DEFINITION. The statements about the model, each from the spec's numbered rules. -/

open Sys2Proof Sys2Proof.Machine

/-! Encoding. -/

/-- R71, R72, R74, R81: the decoder accepts exactly the encodings of the well-formed commands, each as that command:
no bit of a command is dropped, and every other word is reserved. -/
def Obligations.DecodeExactlyEncodings : Prop :=
  ∀ (w : Word) (i : Instr), decode w = .ok i ↔ (i.wellFormed = true ∧ encode i = w)

/-- 95_test_vectors V-ENC-1 to V-ENC-8 (R72, R74, R75): a few words written out. -/
def Obligations.SampleWordsDecode : Prop :=
  decode 0x10000064#32 = .ok (.produce 100#28) ∧ decode 0x10000000#32 = .ok (.produce 0#28) ∧
  decode 0x1FFFFFFF#32 = .ok (.produce 268435455#28) ∧ decode 0x20000000#32 = .ok .reset ∧
  decode 0x20000001#32 = .error (.resetOperand 1#28) ∧ decode 0x00000000#32 = .error (.opcode 0#4) ∧
  decode 0x30000000#32 = .error (.opcode 3#4) ∧ decode 0xFFFFFFFF#32 = .error (.opcode 15#4)

/-- R79, R73: `PRODUCE <cap>` assembles to `0x10000000 | cap` for every capacity up to 268435455, and the word decodes
to a PRODUCE of that capacity; a larger number does not assemble; `RESET` assembles to the RESET word. -/
def Obligations.AssembledWords : Prop :=
  (∀ cap, cap ≤ 268435455 →
    assemble (.produce cap) = some (0x10000000#32 ||| BitVec.ofNat 32 cap) ∧
    ∃ imm, decode (0x10000000#32 ||| BitVec.ofNat 32 cap) = .ok (.produce imm) ∧ capacity imm = cap) ∧
  (∀ cap, 268435455 < cap → assemble (.produce cap) = none) ∧
  assemble .reset = some 0x20000000#32 ∧ decode 0x20000000#32 = .ok .reset

/-! The datapath. -/

/-- R94: a payload followed by its CRC bytes has the CRC 0x0F47. -/
def Obligations.CrcResidue : Prop :=
  ∀ p : List Byte, crc16 (p ++ crcBytes (crc16 p)) = 0x0F47#16

/-- R91: the CRC register is carry-less: one byte into it is linear over exclusive-or. -/
def Obligations.CrcCarryless : Prop :=
  ∀ (r q : BitVec 16) (a b : Byte), crcByte (r ^^^ q) (a ^^^ b) = crcByte r a ^^^ crcByte q b

/-- 95_test_vectors V-CRC-1 to V-CRC-5, V-CRC-10 (R90): the CRCs the spec computes, among them that of ASCII
"123456789". -/
def Obligations.CrcVectors : Prop :=
  crc16 [] = 0x0000#16 ∧ crc16 [0x00#8] = 0xF078#16 ∧ crc16 [0x01#8] = 0xE1F1#16 ∧ crc16 [0xFF#8] = 0xFF00#16 ∧
  crc16 [0x12#8, 0x34#8] = 0xDEC1#16 ∧
  crc16 [0x31#8, 0x32#8, 0x33#8, 0x34#8, 0x35#8, 0x36#8, 0x37#8, 0x38#8, 0x39#8] = 0x906E#16

/-- R51: byte `i` becomes bits `8i` to `8i + 7`, bit `k` of the byte at index `8i + k`; there are no other bits. -/
def Obligations.UnpackOrder : Prop :=
  ∀ d : List Byte, (unpack d).length = 8 * d.length ∧
    ∀ (i k : Nat) (hi : i < d.length), k < 8 → (unpack d)[8 * i + k]? = some (d[i].getLsbD k)

/-- R113 law 1: every five ones in a row in a stuffed sequence are followed by a zero, so it has no six in a row. -/
def Obligations.StuffFiveOnesThenZero : Prop :=
  ∀ b x y : Bits, stuff b = x ++ ones 5 ++ y → ∃ z, y = false :: z

/-- R113 law 2: the length of a stuffed sequence, exactly by the maximal runs of ones, and its bounds. -/
def Obligations.StuffLength : Prop :=
  ∀ b : Bits, (stuff b).length = b.length + ((onesRuns 0 b).map (fun r => r / 5)).sum ∧
    b.length ≤ (stuff b).length ∧ (stuff b).length ≤ b.length + b.length / 5

/-- R113 law 3: STUFF leaves a sequence unchanged exactly when it has no run of five ones. -/
def Obligations.StuffUnchanged : Prop :=
  ∀ b : Bits, stuff b = b ↔ ¬ ones 5 <:+: b

/-- R113 law 4: deleting the zero after each run of five ones gives the sequence back. -/
def Obligations.UnstuffStuff : Prop :=
  ∀ b : Bits, unstuffFrom 0 (stuff b) = b

/-- R113 law 5: STUFF splits after a zero; it need not split elsewhere. -/
def Obligations.StuffSplits : Prop :=
  (∀ x y : Bits, x = [] ∨ (∃ z, x = z ++ [false]) → stuff (x ++ y) = stuff x ++ stuff y) ∧
  ∃ x y : Bits, stuff (x ++ y) ≠ stuff x ++ stuff y

/-- R112: where the last five bits are a run counted from a reset, the inserted zero is the last bit of the body. -/
def Obligations.StuffTrailingRun : Prop :=
  ∀ b : Bits, counterFrom 0 b = 0 → stuff (b ++ ones 5) = stuff b ++ ones 5 ++ [false]

/-- R114: a second pass changes nothing exactly when there is no run of five ones in the input of the first. -/
def Obligations.StuffTwice : Prop :=
  ∀ b : Bits, stuff (stuff b) = stuff b ↔ ¬ ones 5 <:+: b

/-- R121: the bounds on the length of a frame, with `L = 8 (len p + 2)`. -/
def Obligations.FrameLength : Prop :=
  ∀ (cfg : Config) (p : List Byte),
    8 * (p.length + 2) + (cfg.txDelay + 8) + 8 ≤ (build cfg p).length ∧
    (build cfg p).length ≤ cfg.txDelay + 16 + 8 * (p.length + 2) + 8 * (p.length + 2) / 5 ∧
    cfg.txDelay + 32 ≤ (build cfg p).length

/-- R122: in a frame the flag occurs exactly at `tx_delay` and at `len - 8`, and six ones in a row exactly one bit
further on. -/
def Obligations.FlagOnlyAtBounds : Prop :=
  ∀ (cfg : Config) (p : List Byte) (k : Nat),
    (flagAt (build cfg p) k ↔ k = cfg.txDelay ∨ k + 8 = (build cfg p).length) ∧
    (sixOnesAt (build cfg p) k ↔ k = cfg.txDelay + 1 ∨ k + 7 = (build cfg p).length)

/-- R100, R113 law 4, R120: no two payloads have the same frame. -/
def Obligations.FramesTellPayloadsApart : Prop :=
  ∀ (cfg : Config) (p q : List Byte), build cfg p = build cfg q → p = q

/-- R120: the empty payload's frame, and the frame of V-BLD-10, whose body ends with an inserted zero. -/
def Obligations.FrameVectors : Prop :=
  (∀ cfg : Config, build cfg [] = List.replicate cfg.txDelay false ++ flag ++ List.replicate 16 false ++ flag) ∧
  ∀ cfg : Config, build cfg [0x88#8] =
    List.replicate cfg.txDelay false ++ flag ++
      [false, false, false, true, false, false, false, true, false, false, false, true, true, true, false, false,
        false, false, false, true, true, true, true, true, false] ++ flag

/-- R204, R124: which payloads a capacity can ever carry: with `tx_delay = 0` every payload shorter than 27,962,023
bytes can leave, and no payload of 33,554,428 bytes or more can; and a bounded payload bounds its frame. -/
def Obligations.CarriablePayloads : Prop :=
  (∀ (cfg : Config) (p : List Byte), cfg.txDelay = 0 → p.length < 27962023 →
    (build cfg p).length ≤ 2 ^ 28 - 1) ∧
  (∀ (cfg : Config) (p : List Byte), 33554428 ≤ p.length → 2 ^ 28 - 1 < (build cfg p).length) ∧
  ∀ (cfg : Config) (p : List Byte) (m : Nat), cfg.maxPayloadBytes = some m → tooLong cfg p = false →
    (build cfg p).length ≤ cfg.txDelay + 16 + 8 * (m + 2) + 8 * (m + 2) / 5

/-! PRODUCE: what it answers. -/

/-- R150: a PRODUCE of a faulted block does nothing but respond with N = 0 and the recorded cause. -/
def Obligations.ProduceWhileFaulted : Prop :=
  ∀ (imm : BitVec 28) (s : State), s.fault = true →
    exec (.produce imm) s = .next { s with
      ann := [], rsp := some (rspWord s.fcode true (!s.backlog.isEmpty) 0#28) }

/-- R142: the drain phase stops at the first frame that does not fit. The frames before it are emitted whole, it and
those behind it stay, and nothing is pulled. -/
def Obligations.ProduceStopsAtFrame : Prop :=
  ∀ (imm : BitVec 28) (s : State) (ds gs : List Frame) (f : Frame),
    s.fault = false → s.backlog = ds ++ f :: gs → ds.flatten.length ≤ capacity imm →
    capacity imm - ds.flatten.length < f.length →
    exec (.produce imm) s = .next (s.emitted ds (f :: gs) s.src)

/-- R143, `NONE`: with no payload ready the drained frames are the whole answer. -/
def Obligations.ProduceFindsNone : Prop :=
  ∀ (imm : BitVec 28) (s : State),
    s.fault = false → s.backlog.flatten.length ≤ capacity imm → s.src = [] →
    exec (.produce imm) s = .next (s.emitted s.backlog [] [])

/-- R143, R144: a pulled payload whose frame fits behind the drained ones is emitted; equality fits (R141). -/
def Obligations.ProduceEmits : Prop :=
  ∀ (imm : BitVec 28) (s : State) (hint : Option Nat) (p : List Byte) (rest : List Item),
    s.fault = false → s.src = .blob hint p :: rest → tooLong s.cfg p = false →
    s.backlog.flatten.length + (build s.cfg p).length ≤ capacity imm →
    exec (.produce imm) s = .next (s.emitted (s.backlog ++ [build s.cfg p]) [] rest)

/-- R145: a pulled payload whose frame does not fit is queued, and none of its bits is written. -/
def Obligations.ProduceQueues : Prop :=
  ∀ (imm : BitVec 28) (s : State) (hint : Option Nat) (p : List Byte) (rest : List Item),
    s.fault = false → s.src = .blob hint p :: rest → tooLong s.cfg p = false →
    s.backlog.flatten.length ≤ capacity imm →
    capacity imm < s.backlog.flatten.length + (build s.cfg p).length →
    exec (.produce imm) s = .next (s.emitted s.backlog [build s.cfg p] rest)

/-- R180, R183: the fault of a malformed item. The clauses on `out` and `aborts` are the model's choice for
"unspecified" (log 8, DESIGN CHOICE): the cells below the capacity hold free values that the counter selects. -/
def Obligations.ProduceMalformed : Prop :=
  ∀ (imm : BitVec 28) (s : State) (rest : List Item),
    s.fault = false → s.backlog.flatten.length ≤ capacity imm → s.src = .malformed :: rest →
    exec (.produce imm) s = .next { s with
      backlog := [], src := rest, fault := true, fcode := 0b01#2, ann := [], rsp := some 0x60000000#32,
      out := s.out.abort s.aborts (capacity imm), aborts := s.aborts + 1 }

/-- R180, R183: the fault of a payload longer than a bounded limit. The clauses on `out` and `aborts` are the model's
choice for "unspecified" (log 8, DESIGN CHOICE): the cells below the capacity hold free values that the counter
selects. -/
def Obligations.ProduceTooLong : Prop :=
  ∀ (imm : BitVec 28) (s : State) (hint : Option Nat) (p : List Byte) (rest : List Item) (m : Nat),
    s.fault = false → s.backlog.flatten.length ≤ capacity imm → s.src = .blob hint p :: rest →
    s.cfg.maxPayloadBytes = some m → m < p.length →
    exec (.produce imm) s = .next { s with
      backlog := [], src := rest, fault := true, fcode := 0b10#2, ann := [], rsp := some 0xA0000000#32,
      out := s.out.abort s.aborts (capacity imm), aborts := s.aborts + 1 }

/-- R151: capacity 0. A queued frame blocks it and nothing changes but the returns; with an empty backlog it pulls,
and a payload's frame is queued. -/
def Obligations.ProduceZero : Prop :=
  ∀ s : State, Invariant s → s.fault = false →
    (s.backlog ≠ [] →
      exec (.produce 0#28) s = .next { s with ann := [], rsp := some 0x10000000#32 }) ∧
    (s.backlog = [] → s.src = [] →
      exec (.produce 0#28) s = .next { s with ann := [], rsp := some 0x00000000#32 }) ∧
    ∀ hint p rest, s.backlog = [] → s.src = .blob hint p :: rest → tooLong s.cfg p = false →
      exec (.produce 0#28) s = .next { s with
        ann := [], rsp := some 0x10000000#32, backlog := [build s.cfg p], src := rest }

/-! PRODUCE: what holds of every answer. -/

/-- R147: the bounds of one command, from a state a run reaches. -/
def Obligations.ProduceBounds : Prop :=
  ∀ (imm : BitVec 28) (s t : State) (r : Word), Invariant s → exec (.produce imm) s = .next t → t.rsp = some r →
    (rspN r).toNat ≤ capacity imm ∧ t.ann.length ≤ 2 ∧ t.backlog.length ≤ 1 ∧
    (∀ a ∈ t.ann, s.cfg.txDelay + 32 ≤ a.length ∧ a.offset + a.length ≤ (rspN r).toNat) ∧
    ∀ f gs, s.fault = false → s.backlog = f :: gs → capacity imm < f.length →
      (rspN r).toNat = 0 ∧ t.src = s.src

/-- R56: a PRODUCE without a fault writes the cells below N, N being at most the capacity, and no other; one that
faults touches no cell from its capacity on; of a faulted block it touches none (R150). -/
def Obligations.ProduceCells : Prop :=
  ∀ (imm : BitVec 28) (s t : State) (r : Word), exec (.produce imm) s = .next t → t.rsp = some r →
    (t.fault = false →
      (rspN r).toNat ≤ capacity imm ∧ t.returned.length = (rspN r).toNat ∧
      (∀ (k : Nat) (h : k < t.returned.length), t.out.read k = some t.returned[k]) ∧
      ∀ k, (rspN r).toNat ≤ k → t.out.read k = s.out.read k) ∧
    (s.fault = false → t.fault = true → ∀ k, capacity imm ≤ k → t.out.read k = s.out.read k) ∧
    (s.fault = true → t.out = s.out)

/-- The model's form of "unspecified" in R56 and R183 (log 8, DESIGN CHOICE): after a fault each cell below the
capacity holds a free value of that fault, whatever the command had written there. The claim holds for every value
of `Config.abortedCell`. -/
def Obligations.AbortedCellsFree : Prop :=
  ∀ (imm : BitVec 28) (s t : State), exec (.produce imm) s = .next t → s.fault = false → t.fault = true →
    ∀ k, k < capacity imm → t.out.read k = some (Config.abortedCell s.aborts k)

/-- R22, R31, R57, R183: what no PRODUCE changes, and what it changes only by a fault or a pull. -/
def Obligations.ProduceFrame : Prop :=
  ∀ (imm : BitVec 28) (s t : State), exec (.produce imm) s = .next t →
    t.cfg = s.cfg ∧ t.refused = s.refused ∧ t.host = s.host ∧
    (t.fault = s.fault → t.fcode = s.fcode ∧ t.aborts = s.aborts) ∧
    (s.fault = true → t.fault = true ∧ t.backlog = s.backlog ∧ t.src = s.src) ∧
    (t.src = s.src ∨ ∃ item, s.src = item :: t.src)

/-- R53, R144, R146, R152, R154: a PRODUCE without a fault returns whole frames, taken in order from the backlog and
then from the payload it pulls, contiguous from offset 0, one annotation each; the rest stays in the backlog. -/
def Obligations.ProduceWholeFrames : Prop :=
  ∀ (imm : BitVec 28) (s t : State), exec (.produce imm) s = .next t → t.fault = false →
    ∃ fs : List Frame,
      fs ++ t.backlog = s.backlog ++ pulledFrames s t ∧ t.returned = fs.flatten ∧ t.ann = layout s.cfg 0 fs

/-- R153, R57, R143: an item leaves the source only after every queued frame has left, one item at most. -/
def Obligations.PullAfterDrain : Prop :=
  ∀ (imm : BitVec 28) (s t : State), exec (.produce imm) s = .next t → t.src ≠ s.src →
    s.fault = false ∧ s.backlog.flatten.length ≤ capacity imm ∧
    ∃ item, s.src = item :: t.src ∧
      (t.fault = false → ∃ rest, t.returned = s.backlog.flatten ++ rest)

/-- R148: a queued frame leaves, whole and first, in the first PRODUCE that offers its length and does not fault. -/
def Obligations.QueuedFrameLeaves : Prop :=
  ∀ (imm : BitVec 28) (s t : State) (f : Frame) (gs : List Frame),
    s.fault = false → s.backlog = f :: gs → f.length ≤ capacity imm →
    exec (.produce imm) s = .next t → t.fault = false →
    (∃ rest, t.returned = f ++ rest) ∧ ∃ as, t.ann = annotation s.cfg 0 f.length :: as

/-- R182, R186: a command raises a fault only from the item it pulled, after every queued frame was drained; a
malformed item gives code 1, a blob over the limit code 2. -/
def Obligations.FaultCauses : Prop :=
  ∀ (i : Instr) (s t : State), exec i s = .next t → s.fault = false → t.fault = true →
    ∃ imm item rest, i = .produce imm ∧ s.backlog.flatten.length ≤ capacity imm ∧
      s.src = item :: rest ∧ t.src = rest ∧ t.backlog = [] ∧
      ((item = .malformed ∧ t.fcode = 0b01#2) ∨
        ∃ hint p m, item = .blob hint p ∧ s.cfg.maxPayloadBytes = some m ∧ m < p.length ∧ t.fcode = 0b10#2)

/-- R78: the length hint of a blob changes nothing: the same command on sources that differ in hints alone gives
states that differ in hints alone. -/
def Obligations.HintIgnored : Prop :=
  ∀ (i : Instr) (s t : State) (h h' : Option Nat) (p : List Byte) (rest : List Item),
    s.src = .blob h p :: rest → exec i s = .next t →
    exec i { s with src := .blob h' p :: rest } =
      .next { t with src := if t.src = rest then rest else .blob h' p :: rest }

/-- R50, R56: the block never reads the egress buffer. With another buffer `o` a command does the same in every other
field and returns the same bits. In the buffer after it, the cells below N read as with the first buffer and those
from N on read as in `o`; when the command faults, the bound is the capacity in place of N, and the cells below it
hold the free values that are the model's choice for "unspecified" (log 8). -/
def Obligations.EgressNotRead : Prop :=
  ∀ (i : Instr) (s t : State) (o : Egress), exec i s = .next t →
    ∃ o', exec i { s with out := o } = .next { t with out := o' } ∧
      State.returned { t with out := o' } = t.returned ∧
      (¬ (s.fault = false ∧ t.fault = true) → ∀ r, t.rsp = some r →
        (∀ k, k < (rspN r).toNat → o'.read k = t.out.read k) ∧ ∀ k, (rspN r).toNat ≤ k → o'.read k = o.read k) ∧
      (s.fault = false → t.fault = true → ∀ imm, i = .produce imm →
        (∀ k, k < capacity imm → o'.read k = t.out.read k) ∧ ∀ k, capacity imm ≤ k → o'.read k = o.read k)

/-- R76: every command responds, and the response reports the state after it. N counts the bits returned, which the
annotated frames make up: at most the capacity for a PRODUCE, 0 for a RESET and 0 on a fault. -/
def Obligations.ResponseReports : Prop :=
  ∀ (i : Instr) (s t : State), exec i s = .next t →
    ∃ r, t.rsp = some r ∧ rspFcode r = t.fcode ∧ rspFault r = t.fault ∧ rspDraining r = !t.backlog.isEmpty ∧
      (rspN r).toNat = t.returned.length ∧ (rspN r).toNat = (t.ann.map Annotation.length).sum ∧
      (t.fault = true → rspN r = 0#28) ∧ (i = .reset → rspN r = 0#28) ∧
      ∀ imm, i = .produce imm → (rspN r).toNat ≤ capacity imm

/-! RESET, construction and reset. -/

/-- R170: RESET in every state, with all it leaves unchanged, and its one encoding. That it returns no annotations,
`ann := []`, is the model's choice (log 5, DESIGN CHOICE): R170 gives it a response word and is silent on them. -/
def Obligations.ResetResult : Prop :=
  (∀ s : State, exec .reset s = .next { s with
    backlog := [], fault := false, fcode := 0b00#2, rsp := some 0x00000000#32, ann := [] }) ∧
  (∀ s : State, ∃ t, exec .reset s = .next t ∧ t.sched = .idle) ∧
  ∀ w : Word, decode w = .ok .reset ↔ w = 0x20000000#32

/-- R201: RESET leaves the values construction gives for the same configuration, the mark, the environment and the
response apart; and a RESET after it changes nothing. -/
def Obligations.ResetIsConstruction : Prop :=
  ∀ s t : State, exec .reset s = .next t →
    { t with refused := false, rsp := none, src := [], out := Egress.empty, host := [], aborts := 0 } =
      State.initial s.cfg ∧
    t.refused = s.refused ∧ t.src = s.src ∧ t.out = s.out ∧ exec .reset t = .next t

/-- R35, R200: the values after construction. (The configuration's own values, the empty source and the unlisted
buffer are the model's: log 2, 6, 7.) -/
def Obligations.ResetValues : Prop :=
  State.reset.backlog = [] ∧ State.reset.sched = .idle ∧ State.reset.fault = false ∧
  State.reset.fcode = 0b00#2 ∧ State.reset.refused = false ∧
  preamble State.reset.cfg = List.replicate State.reset.cfg.txDelay false ++
    [false, true, true, true, true, true, true, false] ∧
  postamble = [false, true, true, true, true, true, true, false]

/-- R23, R200: a configuration constructs a block exactly when it is legal, and the block meets the invariant. The
model's choices in it (DESIGN CHOICE): that a function refuses an illegal configuration under the name illegalConfig
(log 18), and that the constructed block has no response yet (log 5), an empty source (log 6) and an egress buffer
with no cell listed (log 7). -/
def Obligations.ConstructLegal : Prop :=
  ∀ c : Config,
    (((∀ m, c.txdMax = some m → c.txDelay ≤ m) ∧ 1 ≤ c.backlogDepth) →
      State.construct c = .next (State.initial c) ∧ Invariant (State.initial c)) ∧
    (¬ ((∀ m, c.txdMax = some m → c.txDelay ≤ m) ∧ 1 ≤ c.backlogDepth) →
      State.construct c = .refused .illegalConfig)

/-- The invariant holds at reset. -/
def Obligations.InvariantAtReset : Prop := Invariant State.reset

/-! Steps and runs. -/

/-- R60, R70, R81: a command word that decodes to a well-formed instruction runs as that instruction, on the state
whose port has taken the word. The model's own in it: the list of moves the word is taken from (log 1, DESIGN
CHOICE), that taking it clears the returns of the command before (log 5, DESIGN CHOICE), and that `withFetchWord`
stands for the driver issuing a word (log 11, DEDUCED). -/
def Obligations.StepRunsDecoded : Prop :=
  ∀ (s : State) (w : Word) (rest : List HostMove) (i : Instr),
    s.host = .command w :: rest → decode w = .ok i → i.wellFormed = true →
    step s = exec i { s with host := rest, rsp := none, ann := [] } ∧
    step (s.withFetchWord 32 w.toNat) = exec i { s with rsp := none, ann := [] }

/-- R75, R81: every other word only sets the mark and gets no response. The model's choices in it (DESIGN CHOICE): that
this is a next state from which the run goes on (log 9), and that the returns of the command before are gone, with
`rsp := none` for "no response" (log 5). -/
def Obligations.StepMarksReserved : Prop :=
  ∀ (s : State) (w : Word) (rest : List HostMove),
    s.host = .command w :: rest → w.extractLsb' 28 4 ≠ 0x1#4 → w ≠ 0x20000000#32 →
    step s = .next { s with host := rest, rsp := none, ann := [], refused := true }

/-- R57, R193, R202: the moves that are no command, and idling. The model's own in it: that the moves of the host are
a list in State (log 1, DESIGN CHOICE); what a supplied buffer reads as (log 7, DESIGN CHOICE), which is the later
bit in a cell the list names twice and no value in a cell it does not name, whatever the buffer before held; and
that a step without a move changes nothing (log 16, DEDUCED). -/
def Obligations.StepHostMoves : Prop :=
  (∀ (s : State) item rest, s.host = .append item :: rest →
    step s = .next { s with host := rest, src := s.src ++ [item] }) ∧
  (∀ (s : State) cells rest, s.host = .supply cells :: rest →
    step s = .next { s with host := rest, out := Egress.ofDriver cells } ∧ (Egress.ofDriver cells).wf = true ∧
      ∀ k, (Egress.ofDriver cells).read k = (cells.reverse.find? (fun c => c.1 == k)).map Prod.snd) ∧
  ∀ s : State, s.host = [] → step s = .next s

/-- Every step keeps the invariant. -/
def Obligations.StepKeepsInvariant : Prop :=
  ∀ s t : State, Invariant s → step s = .next t → Invariant t

/-- R149: no PRODUCE blocks. That a run of any length goes on, from every state, rests besides on the model's own: it
goes on after a reserved word (log 9, DESIGN CHOICE), no rule stops the machine (log 13, DEDUCED), and it idles where
no move is left (log 16, DEDUCED). -/
def Obligations.RunNeverStops : Prop :=
  ∀ (k : Nat) (s : State), ∃ t, core.run k s = .next t

/-- R22, R188: no run changes the configuration, and no run clears the mark REFUSED (R31). -/
def Obligations.RunKeepsConfig : Prop :=
  ∀ (k : Nat) (s t : State), core.run k s = .next t →
    t.cfg = s.cfg ∧ (s.refused = true → t.refused = true)

/-- R31, R75: a step sets the mark exactly when it meets a reserved word. -/
def Obligations.RefusedExactly : Prop :=
  ∀ s t : State, step s = .next t → s.refused = false →
    (t.refused = true ↔ ∃ w rest, s.host = .command w :: rest ∧ ∀ i, encode i ≠ w)

/-- R185, R150: a fault stays, with its cause and the backlog, and no item leaves the source, until a RESET. -/
def Obligations.FaultStays : Prop :=
  ∀ (k : Nat) (s t : State), s.fault = true → s.noReset k → core.run k s = .next t →
    t.fault = true ∧ t.fcode = s.fcode ∧ t.backlog = s.backlog ∧ (∃ new, t.src = s.src ++ new) ∧
    runOutput k s = []

/-- R61, R148: the whole-frame invariant of a run without fault, reserved word or RESET: what was queued and the
frames built, in pull order, are the outputs of the commands, in command order, and at most one frame still
queued. -/
def Obligations.RunWholeFrames : Prop :=
  ∀ (k : Nat) (s t : State), Invariant s → s.noReset k → core.run k s = .next t → t.clean →
    s.backlog.flatten ++ (runBuilt k s).flatten = runOutput k s ++ t.backlog.flatten ∧ t.backlog.length ≤ 1

/-- R204: starvation. While every command offers less than the queued frame's length, nothing leaves the block and no
item leaves the source. -/
def Obligations.RunStarves : Prop :=
  ∀ (k : Nat) (s t : State) (f : Frame) (gs : List Frame), s.fault = false → s.backlog = f :: gs →
    (∀ w, HostMove.command w ∈ s.host.take k → ∃ imm, decode w = .ok (.produce imm) ∧ capacity imm < f.length) →
    core.run k s = .next t →
    t.backlog = s.backlog ∧ t.fault = false ∧ runOutput k s = [] ∧ ∃ new, t.src = s.src ++ new
end

