-- ==== Sys2Proof/Laws/Datapath.lean ====
section
/-! SUPPORT. The lengths of what the datapath makes, and how STUFF and UNPACK unfold. -/

namespace Sys2Proof.Machine

@[simp] theorem length_flag : flag.length = 8 := rfl

@[simp] theorem length_postamble : postamble.length = 8 := rfl

@[simp] theorem length_preamble (cfg : Config) : (preamble cfg).length = cfg.txDelay + 8 := by
  simp [preamble]

@[simp] theorem length_crcBytes (c : BitVec 16) : (crcBytes c).length = 2 := rfl

@[simp] theorem length_unpackByte (b : Byte) : (unpackByte b).length = 8 := rfl

@[simp] theorem unpack_nil : unpack [] = [] := rfl

@[simp] theorem unpack_cons (b : Byte) (d : List Byte) : unpack (b :: d) = unpackByte b ++ unpack d := rfl

theorem unpack_append (d e : List Byte) : unpack (d ++ e) = unpack d ++ unpack e := by
  induction d with
  | nil => rfl
  | cons b d ih => simp [ih]

@[simp] theorem stuffFrom_nil (c : Nat) : stuffFrom c [] = [] := by cases c <;> rfl

@[simp] theorem stuffFrom_false (c : Nat) (b : Bits) : stuffFrom c (false :: b) = false :: stuffFrom 0 b := by
  cases c <;> rfl

theorem stuffFrom_true_full {c : Nat} (h : c + 1 = stuffRun) (b : Bits) :
    stuffFrom c (true :: b) = true :: false :: stuffFrom 0 b := by
  simp [stuffFrom, h]

theorem stuffFrom_true_next {c : Nat} (h : c + 1 ≠ stuffRun) (b : Bits) :
    stuffFrom c (true :: b) = true :: stuffFrom (c + 1) b := by
  simp [stuffFrom, h]

/-- STUFF only inserts. -/
theorem length_le_stuffFrom (b : Bits) (c : Nat) : b.length ≤ (stuffFrom c b).length := by
  induction b generalizing c with
  | nil => simp
  | cons x b ih =>
    cases x with
    | false => simpa using ih 0
    | true =>
      by_cases h : c + 1 = stuffRun
      · have := ih 0
        rw [stuffFrom_true_full h]
        simp only [List.length_cons]
        omega
      · rw [stuffFrom_true_next h]
        simpa using ih (c + 1)

/-- The length of a frame is that of its body and the two templates (R121). -/
theorem length_build (cfg : Config) (p : List Byte) :
    (build cfg p).length = cfg.txDelay + 8 + (frameBody p).length + 8 := by
  simp [build]
  omega

@[simp] theorem crcRegister_nil : crcRegister [] = 0xFFFF#16 := rfl

theorem crcRegister_append (d e : List Byte) : crcRegister (d ++ e) = e.foldl crcByte (crcRegister d) := by
  simp [crcRegister]

end Sys2Proof.Machine
end

