-- ==== Sys2Proof/Laws/Egress.lean ====
section
/-! SUPPORT. The egress buffer: what a read finds after a write, a fault and a supply, and that each of them keeps
the canonical form (20_memory R50 to R56). -/

namespace Sys2Proof.Machine

/-! The list of cells. -/

theorem cellAt_setCell_same (cs : List (Nat × Bit)) (k : Nat) (v : Bit) :
    cellAt (setCell cs k v) k = some v := by
  induction cs with
  | nil => simp [setCell, cellAt]
  | cons c cs ih =>
    obtain ⟨i, w⟩ := c
    simp only [setCell]
    split
    · simp [cellAt]
    · split
      · simp [cellAt]
      · rename_i h
        simp [cellAt, Ne.symm h, ih]

theorem cellAt_setCell_other (cs : List (Nat × Bit)) {k j : Nat} (v : Bit) (h : j ≠ k) :
    cellAt (setCell cs k v) j = cellAt cs j := by
  induction cs with
  | nil => simp [setCell, cellAt, Ne.symm h]
  | cons c cs ih =>
    obtain ⟨i, w⟩ := c
    simp only [setCell]
    split
    · simp [cellAt, Ne.symm h]
    · split
      · rename_i hk
        subst hk
        simp [cellAt, Ne.symm h]
      · simp [cellAt, ih]

/-- A write leaves every cell outside it as it was. -/
theorem cellAt_setCells_outside (vs : Bits) (cs : List (Nat × Bit)) (off k : Nat)
    (h : k < off ∨ off + vs.length ≤ k) : cellAt (setCells cs off vs) k = cellAt cs k := by
  induction vs generalizing cs off with
  | nil => rfl
  | cons v vs ih =>
    simp only [List.length_cons] at h
    rw [setCells, ih _ _ (by omega), cellAt_setCell_other _ _ (by omega)]

/-- A write puts its bits at its cells. -/
theorem cellAt_setCells_inside (vs : Bits) (cs : List (Nat × Bit)) (off i : Nat) (h : i < vs.length) :
    cellAt (setCells cs off vs) (off + i) = some vs[i] := by
  induction vs generalizing cs off i with
  | nil => simp at h
  | cons v vs ih =>
    cases i with
    | zero =>
      rw [setCells, cellAt_setCells_outside _ _ _ _ (by omega)]
      simpa using cellAt_setCell_same cs off v
    | succ i =>
      have := ih (setCell cs off v) (off + 1) i (by simpa using h)
      rw [setCells, show off + (i + 1) = off + 1 + i by omega, this]
      simp

/-- Cells set in a list's order: the last bit the list names for a cell, else what was there. -/
theorem cellAt_setListed (ds cs : List (Nat × Bit)) (k : Nat) :
    cellAt (setListed cs ds) k =
      match ds.reverse.find? (fun c => c.1 == k) with
      | some c => some c.2
      | none => cellAt cs k := by
  induction ds generalizing cs with
  | nil => rfl
  | cons d ds ih =>
    rw [setListed, ih, List.reverse_cons, List.find?_append]
    cases ds.reverse.find? (fun c => c.1 == k) with
    | some c => rfl
    | none =>
      by_cases h : d.1 = k
      · subst h
        simp [cellAt_setCell_same]
      · simp [h, cellAt_setCell_other _ _ (Ne.symm h)]

theorem cellAt_filter (cap : Nat) (cs : List (Nat × Bit)) (k : Nat) :
    cellAt (cs.filter (fun c => decide (cap ≤ c.1))) k = if k < cap then none else cellAt cs k := by
  induction cs with
  | nil => simp [cellAt]
  | cons c cs ih =>
    obtain ⟨i, w⟩ := c
    by_cases hi : cap ≤ i
    · rw [List.filter_cons_of_pos (by simpa using hi)]
      simp only [cellAt, ih]
      by_cases hk : i = k
      · simp [hk, show ¬k < cap by omega]
      · simp [hk]
    · rw [List.filter_cons_of_neg (by simpa using hi), ih]
      by_cases hk : k < cap
      · simp [hk]
      · simp [cellAt, hk, show i ≠ k by omega]

/-! The list of unspecified regions. -/

theorem spoilAt_filter (cap : Nat) (rs : List Spoil) (k : Nat) (h : cap ≤ k) :
    spoilAt (rs.filter (fun r => decide (cap < r.bound))) k = spoilAt rs k := by
  induction rs with
  | nil => rfl
  | cons r rs ih =>
    by_cases hr : cap < r.bound
    · rw [List.filter_cons_of_pos (by simpa using hr)]
      simp [spoilAt, ih]
    · rw [List.filter_cons_of_neg (by simpa using hr), ih]
      simp [spoilAt, show ¬k < r.bound by omega]

/-! Reads. -/

/-- A write leaves every cell outside it as it was (R56). -/
theorem read_write_outside (e : Egress) (off k : Nat) (v : Bits) (h : k < off ∨ off + v.length ≤ k) :
    (e.write off v).read k = e.read k := by
  simp [Egress.read, Egress.write, cellAt_setCells_outside v e.cells off k h, Egress.unlisted]

/-- A write puts bit `i` at cell `off + i` (R144). -/
theorem read_write_inside (e : Egress) (off i : Nat) (v : Bits) (h : i < v.length) :
    (e.write off v).read (off + i) = some v[i] := by
  simp [Egress.read, Egress.write, cellAt_setCells_inside v e.cells off i h]

/-- A fault leaves every cell from its capacity on as it was (R183). -/
theorem read_abort_outside (e : Egress) (tag cap k : Nat) (h : cap ≤ k) :
    (e.abort tag cap).read k = e.read k := by
  by_cases hc : cap = 0
  · simp [Egress.abort, hc]
  · simp [Egress.abort, hc, Egress.read, Egress.unlisted, cellAt_filter, spoilAt, spoilAt_filter _ _ _ h,
      Nat.not_lt.mpr h]

/-- A fault leaves a free value in every cell below its capacity (R183). -/
theorem read_abort_inside (e : Egress) (tag cap k : Nat) (h : k < cap) :
    (e.abort tag cap).read k = some (Config.abortedCell tag k) := by
  have hc : cap ≠ 0 := by omega
  simp [Egress.abort, hc, Egress.read, Egress.unlisted, cellAt_filter, spoilAt, h]


/-- Two writes one after the other are one write (R144). -/
theorem write_write (e : Egress) (off : Nat) (v w : Bits) :
    (e.write off v).write (off + v.length) w = e.write off (v ++ w) := by
  have key : ∀ (v : Bits) (cs : List (Nat × Bit)) (off : Nat),
      setCells (setCells cs off v) (off + v.length) w = setCells cs off (v ++ w) := by
    intro v
    induction v with
    | nil => intro cs off; rfl
    | cons b v ih =>
      intro cs off
      have := ih (setCell cs off b) (off + 1)
      simp only [setCells, List.cons_append, List.length_cons]
      rw [← this, show off + (v.length + 1) = off + 1 + v.length by omega]
  simp [Egress.write, key]

/-- A range whose cells all have values reads as those values. -/
theorem readRange_eq (e : Egress) (v : Bits) (off : Nat)
    (h : ∀ (i : Nat) (hi : i < v.length), e.read (off + i) = some v[i]) : e.readRange off v.length = v := by
  induction v generalizing off with
  | nil => rfl
  | cons b v ih =>
    have h0 : e.read off = some b := h 0 (Nat.zero_lt_succ _)
    have ht := ih (off + 1) (by
      intro i hi
      have := h (i + 1) (by simpa using hi)
      rw [show off + 1 + i = off + (i + 1) by omega, this]
      simp)
    simp [Egress.readRange, h0, ht]

/-- What was written reads back (R146). -/
theorem readRange_write (e : Egress) (off : Nat) (v : Bits) : (e.write off v).readRange off v.length = v :=
  readRange_eq _ _ _ fun i hi => read_write_inside e off i v hi

/-! The canonical form. -/

/-- The strictly rising form says every later key is above every earlier one. -/
theorem risingCells_iff (cs : List (Nat × Bit)) :
    risingCells cs = true ↔ cs.Pairwise (fun a b => a.1 < b.1) := by
  induction cs with
  | nil => simp [risingCells]
  | cons a cs ih =>
    cases cs with
    | nil => simp [risingCells]
    | cons b cs =>
      rw [risingCells, Bool.and_eq_true, decide_eq_true_iff, ih]
      constructor
      · rintro ⟨hab, hp⟩
        refine List.pairwise_cons.mpr ⟨?_, hp⟩
        intro x hx
        rcases List.mem_cons.mp hx with rfl | hx
        · exact hab
        · exact Nat.lt_trans hab ((List.pairwise_cons.mp hp).1 x hx)
      · intro hp
        exact ⟨(List.pairwise_cons.mp hp).1 b (by simp), (List.pairwise_cons.mp hp).2⟩

theorem mem_setCell {cs : List (Nat × Bit)} {k : Nat} {v : Bit} {x : Nat × Bit} (h : x ∈ setCell cs k v) :
    x = (k, v) ∨ x ∈ cs := by
  induction cs with
  | nil => simpa [setCell] using h
  | cons c cs ih =>
    obtain ⟨i, w⟩ := c
    simp only [setCell] at h
    split at h
    · simpa using h
    · split at h
      · rcases List.mem_cons.mp h with h | h
        · exact .inl h
        · exact .inr (by simp [h])
      · rcases List.mem_cons.mp h with h | h
        · exact .inr (by simp [h])
        · rcases ih h with h | h
          · exact .inl h
          · exact .inr (by simp [h])

theorem risingCells_setCell {cs : List (Nat × Bit)} (k : Nat) (v : Bit) (h : risingCells cs = true) :
    risingCells (setCell cs k v) = true := by
  rw [risingCells_iff] at *
  induction cs with
  | nil => simp [setCell]
  | cons c cs ih =>
    obtain ⟨i, w⟩ := c
    obtain ⟨h1, h2⟩ := List.pairwise_cons.mp h
    simp only [setCell]
    split
    · rename_i hk
      refine List.pairwise_cons.mpr ⟨?_, h⟩
      intro x hx
      rcases List.mem_cons.mp hx with rfl | hx
      · exact hk
      · exact Nat.lt_trans hk (h1 x hx)
    · split
      · rename_i hk
        subst hk
        exact List.pairwise_cons.mpr ⟨h1, h2⟩
      · refine List.pairwise_cons.mpr ⟨?_, ih h2⟩
        intro x hx
        rcases mem_setCell hx with rfl | hx
        · show i < k
          omega
        · exact h1 x hx

theorem risingCells_setCells (vs : Bits) {cs : List (Nat × Bit)} (off : Nat) (h : risingCells cs = true) :
    risingCells (setCells cs off vs) = true := by
  induction vs generalizing cs off with
  | nil => exact h
  | cons v vs ih => exact ih (off + 1) (risingCells_setCell off v h)

theorem risingCells_setListed (ds : List (Nat × Bit)) {cs : List (Nat × Bit)} (h : risingCells cs = true) :
    risingCells (setListed cs ds) = true := by
  induction ds generalizing cs with
  | nil => exact h
  | cons d ds ih => exact ih (risingCells_setCell d.1 d.2 h)

/-- The form of the regions says all bounds are positive and every older one is above every newer one. -/
theorem risingSpoils_iff (rs : List Spoil) :
    risingSpoils rs = true ↔ (∀ r ∈ rs, 0 < r.bound) ∧ rs.Pairwise (fun a b => a.bound < b.bound) := by
  induction rs with
  | nil => simp [risingSpoils]
  | cons a rs ih =>
    cases rs with
    | nil => simp [risingSpoils]
    | cons b rs =>
      simp only [risingSpoils, Bool.and_eq_true, decide_eq_true_iff, ih]
      constructor
      · rintro ⟨⟨ha, hab⟩, hpos, hp⟩
        refine ⟨?_, List.pairwise_cons.mpr ⟨?_, hp⟩⟩
        · intro x hx
          rcases List.mem_cons.mp hx with rfl | hx
          · exact ha
          · exact hpos x hx
        · intro x hx
          rcases List.mem_cons.mp hx with rfl | hx
          · exact hab
          · exact Nat.lt_trans hab ((List.pairwise_cons.mp hp).1 x hx)
      · rintro ⟨hpos, hp⟩
        obtain ⟨h1, h2⟩ := List.pairwise_cons.mp hp
        exact ⟨⟨hpos a (by simp), h1 b (by simp)⟩, fun x hx => hpos x (by simp [hx]), h2⟩

/-- A write keeps the canonical form. -/
theorem wf_write {e : Egress} (off : Nat) (v : Bits) (h : e.wf = true) : (e.write off v).wf = true := by
  simp only [Egress.wf, Bool.and_eq_true] at *
  exact ⟨risingCells_setCells v off h.1, h.2⟩

/-- A fault keeps the canonical form. -/
theorem wf_abort {e : Egress} (tag cap : Nat) (h : e.wf = true) : (e.abort tag cap).wf = true := by
  unfold Egress.abort
  split
  · exact h
  · rename_i hc
    simp only [Egress.wf, Bool.and_eq_true, risingCells_iff, risingSpoils_iff] at *
    obtain ⟨h1, h2, h3⟩ := h
    refine ⟨h1.filter _, ?_, List.pairwise_cons.mpr ⟨?_, h3.filter _⟩⟩
    · intro x hx
      rcases List.mem_cons.mp hx with rfl | hx
      · show 0 < cap
        omega
      · exact h2 x (List.mem_filter.mp hx).1
    · intro x hx
      simpa using (List.mem_filter.mp hx).2

/-- A supplied buffer is in canonical form. -/
theorem wf_ofDriver (ds : List (Nat × Bit)) : (Egress.ofDriver ds).wf = true := by
  simp only [Egress.wf, Egress.ofDriver, Bool.and_eq_true]
  exact ⟨risingCells_setListed ds rfl, rfl⟩

/-- The empty buffer is in canonical form. -/
theorem wf_empty : Egress.empty.wf = true := rfl

/-- The buffer of the state after reset is in canonical form. -/
theorem wf_reset : State.reset.out.wf = true := rfl

end Sys2Proof.Machine
end

