-- ==== Sys2Proof/Laws/Fields.lean ====
section
/-! SUPPORT. The fields of command and response words, and the operand of PRODUCE. -/

namespace Sys2Proof.Machine

/-- The bits of a response word (R76). -/
theorem getLsbD_rspWord (c : BitVec 2) (f d : Bool) (n : BitVec 28) (i : Nat) :
    (rspWord c f d n).getLsbD i =
      if i < 28 then n.getLsbD i
      else if i < 29 then (BitVec.ofBool d).getLsbD (i - 28)
      else if i < 30 then (BitVec.ofBool f).getLsbD (i - 29)
      else c.getLsbD (i - 30) := by
  show BitVec.getLsbD (w := 2 + (1 + (1 + 28))) (c ++ (BitVec.ofBool f ++ (BitVec.ofBool d ++ n))) i = _
  rw [BitVec.getLsbD_append, BitVec.getLsbD_append, BitVec.getLsbD_append]
  by_cases h1 : i < 28
  · simp [h1, show i < 30 by omega, show i < 29 by omega]
  · by_cases h2 : i < 29
    · simp [h1, h2, show i < 30 by omega]
    · by_cases h3 : i < 30
      · simp [h1, h2, h3]
      · simp [h1, h2, h3]

@[simp] theorem rspN_rspWord (c : BitVec 2) (f d : Bool) (n : BitVec 28) : rspN (rspWord c f d n) = n := by
  apply BitVec.eq_of_getLsbD_eq
  intro i hi
  rw [rspN, BitVec.getLsbD_extractLsb', getLsbD_rspWord]
  simp [hi]

@[simp] theorem rspDraining_rspWord (c : BitVec 2) (f d : Bool) (n : BitVec 28) :
    rspDraining (rspWord c f d n) = d := by
  rw [rspDraining, getLsbD_rspWord]
  simp

@[simp] theorem rspFault_rspWord (c : BitVec 2) (f d : Bool) (n : BitVec 28) :
    rspFault (rspWord c f d n) = f := by
  rw [rspFault, getLsbD_rspWord]
  simp

@[simp] theorem rspFcode_rspWord (c : BitVec 2) (f d : Bool) (n : BitVec 28) :
    rspFcode (rspWord c f d n) = c := by
  apply BitVec.eq_of_getLsbD_eq
  intro i hi
  rw [rspFcode, BitVec.getLsbD_extractLsb', getLsbD_rspWord]
  simp [hi, show ¬30 + i < 28 by omega, show ¬30 + i < 29 by omega]

/-- The response word 0 reports nothing. -/
theorem rspWord_zero : rspWord 0 false false 0 = 0x00000000#32 := by decide

theorem capacity_eq (imm : BitVec 28) : capacity imm = imm.toNat := by
  have := imm.isLt
  simp [capacity]
  omega

theorem capacity_lt (imm : BitVec 28) : capacity imm < 2 ^ 28 := by
  rw [capacity_eq]
  exact imm.isLt

/-- A count of at most a capacity fits in the field N (R76). -/
theorem toNat_ofNat_of_le_capacity {n : Nat} {imm : BitVec 28} (h : n ≤ capacity imm) :
    (BitVec.ofNat 28 n).toNat = n := by
  rw [BitVec.toNat_ofNat]
  exact Nat.mod_eq_of_lt (Nat.lt_of_le_of_lt h (capacity_lt imm))

theorem fits_iff {cap off len : Nat} : fits cap off len = true ↔ len ≤ cap - off := by
  simp [fits]

theorem not_fits_iff {cap off len : Nat} : fits cap off len = false ↔ cap - off < len := by
  simp [fits]

/-- The bits of a word made of an opcode and an operand (R71). -/
theorem getLsbD_word (o : BitVec 4) (i : BitVec 28) (k : Nat) :
    BitVec.getLsbD (w := 32) (o ++ i) k = if k < 28 then i.getLsbD k else o.getLsbD (k - 28) :=
  BitVec.getLsbD_append

@[simp] theorem opcField_append (o : BitVec 4) (i : BitVec 28) : opcField (o ++ i) = o := by
  apply BitVec.eq_of_getLsbD_eq
  intro k hk
  rw [opcField, BitVec.getLsbD_extractLsb', getLsbD_word]
  simp [hk]

@[simp] theorem immField_append (o : BitVec 4) (i : BitVec 28) : immField (o ++ i) = i := by
  apply BitVec.eq_of_getLsbD_eq
  intro k hk
  rw [immField, BitVec.getLsbD_extractLsb', getLsbD_word]
  simp [hk]

/-- A word is its two fields (R71). -/
theorem append_fields (w : Word) : opcField w ++ immField w = w := by
  apply BitVec.eq_of_getLsbD_eq
  intro k hk
  rw [getLsbD_word, opcField, immField, BitVec.getLsbD_extractLsb', BitVec.getLsbD_extractLsb']
  by_cases h : k < 28
  · simp [h]
  · simp [h, show k - 28 < 4 by omega, show 28 + (k - 28) = k by omega]

end Sys2Proof.Machine
end

