-- ==== Sys2Proof/Laws/PerInstr.lean ====
section
/-! SUPPORT. Facts about every instruction as syntax, one lemma per constructor. -/

namespace Sys2Proof.Laws.Encoding

/-- The row of spec/opcode_table.json: its mask and its match. -/
def row : Instr → Word × Word
  | .produce _ => (0xF0000000#32, 0x10000000#32)
  | .reset => (0xFFFFFFFF#32, 0x20000000#32)

/-- The encoding of an instruction shows its row's match under its row's mask, and under no other row's. -/
def Statement (i : Instr) : Prop :=
  ∀ j : Instr, (encode i &&& (row j).1 = (row j).2) ↔ (row j = row i)

theorem mask_produce (imm : BitVec 28) : encode (.produce imm) &&& 0xF0000000#32 = 0x10000000#32 := by
  apply BitVec.eq_of_getLsbD_eq
  intro k hk
  rw [BitVec.getLsbD_and]
  show (BitVec.getLsbD (w := 32) (0x1#4 ++ imm) k && (0xF0000000#32).getLsbD k) = _
  rw [Machine.getLsbD_word]
  by_cases h : k < 28
  · have : ∀ k : Fin 28, (0xF0000000#32).getLsbD k = false ∧ (0x10000000#32).getLsbD k = false := by decide
    simp [h, this ⟨k, h⟩]
  · have : ∀ k : Fin 4, ((0x1#4).getLsbD k && (0xF0000000#32).getLsbD (k + 28)) = (0x10000000#32).getLsbD (k + 28) := by
      decide
    have := this ⟨k - 28, by omega⟩
    simp only [show k - 28 + 28 = k by omega] at this
    simpa [h] using this

theorem produce (imm : BitVec 28) : Statement (.produce imm) := by
  intro j
  cases j with
  | produce _ => simp [row, mask_produce]
  | reset =>
    simp only [row]
    constructor
    · intro h
      have h1 := mask_produce imm
      have h2 : encode (.produce imm) = 0x20000000#32 := by
        rw [← h]
        exact (BitVec.and_allOnes (x := encode (.produce imm))).symm
      rw [h2] at h1
      exact absurd h1 (by decide)
    · intro h
      exact absurd h (by decide)

theorem reset : Statement .reset := by
  intro j
  cases j with
  | produce _ => simp only [row]; decide
  | reset => simp only [row]; decide

end Sys2Proof.Laws.Encoding
end

