-- ==== Sys2Proof/Laws/State.lean ====
section
/-! SUPPORT. The fields of the state after each update: one lemma per field per update, so that no proof unfolds a
record update. -/

namespace Sys2Proof.Machine

@[simp] theorem respond_cfg (n : Nat) (s : State) :
    (respond n s).cfg = s.cfg := rfl
@[simp] theorem respond_backlog (n : Nat) (s : State) :
    (respond n s).backlog = s.backlog := rfl
@[simp] theorem respond_fault (n : Nat) (s : State) :
    (respond n s).fault = s.fault := rfl
@[simp] theorem respond_fcode (n : Nat) (s : State) :
    (respond n s).fcode = s.fcode := rfl
@[simp] theorem respond_refused (n : Nat) (s : State) :
    (respond n s).refused = s.refused := rfl
@[simp] theorem respond_rsp (n : Nat) (s : State) :
    (respond n s).rsp = some (rspWord s.fcode s.fault s.draining (BitVec.ofNat 28 n)) := rfl
@[simp] theorem respond_ann (n : Nat) (s : State) :
    (respond n s).ann = s.ann := rfl
@[simp] theorem respond_src (n : Nat) (s : State) :
    (respond n s).src = s.src := rfl
@[simp] theorem respond_out (n : Nat) (s : State) :
    (respond n s).out = s.out := rfl
@[simp] theorem respond_host (n : Nat) (s : State) :
    (respond n s).host = s.host := rfl
@[simp] theorem respond_aborts (n : Nat) (s : State) :
    (respond n s).aborts = s.aborts := rfl

@[simp] theorem deliver_cfg (e : Emission) (s : State) :
    (deliver e s).cfg = s.cfg := rfl
@[simp] theorem deliver_backlog (e : Emission) (s : State) :
    (deliver e s).backlog = s.backlog := rfl
@[simp] theorem deliver_fault (e : Emission) (s : State) :
    (deliver e s).fault = s.fault := rfl
@[simp] theorem deliver_fcode (e : Emission) (s : State) :
    (deliver e s).fcode = s.fcode := rfl
@[simp] theorem deliver_refused (e : Emission) (s : State) :
    (deliver e s).refused = s.refused := rfl
@[simp] theorem deliver_rsp (e : Emission) (s : State) :
    (deliver e s).rsp = s.rsp := rfl
@[simp] theorem deliver_ann (e : Emission) (s : State) :
    (deliver e s).ann = e.ann := rfl
@[simp] theorem deliver_src (e : Emission) (s : State) :
    (deliver e s).src = s.src := rfl
@[simp] theorem deliver_out (e : Emission) (s : State) :
    (deliver e s).out = e.out := rfl
@[simp] theorem deliver_host (e : Emission) (s : State) :
    (deliver e s).host = s.host := rfl
@[simp] theorem deliver_aborts (e : Emission) (s : State) :
    (deliver e s).aborts = s.aborts := rfl

@[simp] theorem raiseFault_cfg (code : BitVec 2) (cap : Nat) (s : State) :
    (raiseFault code cap s).cfg = s.cfg := rfl
@[simp] theorem raiseFault_backlog (code : BitVec 2) (cap : Nat) (s : State) :
    (raiseFault code cap s).backlog = s.backlog := rfl
@[simp] theorem raiseFault_fault (code : BitVec 2) (cap : Nat) (s : State) :
    (raiseFault code cap s).fault = true := rfl
@[simp] theorem raiseFault_fcode (code : BitVec 2) (cap : Nat) (s : State) :
    (raiseFault code cap s).fcode = code := rfl
@[simp] theorem raiseFault_refused (code : BitVec 2) (cap : Nat) (s : State) :
    (raiseFault code cap s).refused = s.refused := rfl
@[simp] theorem raiseFault_rsp (code : BitVec 2) (cap : Nat) (s : State) :
    (raiseFault code cap s).rsp = some (rspWord code true s.draining 0#28) := rfl
@[simp] theorem raiseFault_ann (code : BitVec 2) (cap : Nat) (s : State) :
    (raiseFault code cap s).ann = [] := rfl
@[simp] theorem raiseFault_src (code : BitVec 2) (cap : Nat) (s : State) :
    (raiseFault code cap s).src = s.src := rfl
@[simp] theorem raiseFault_out (code : BitVec 2) (cap : Nat) (s : State) :
    (raiseFault code cap s).out = s.out.abort s.aborts cap := rfl
@[simp] theorem raiseFault_host (code : BitVec 2) (cap : Nat) (s : State) :
    (raiseFault code cap s).host = s.host := rfl
@[simp] theorem raiseFault_aborts (code : BitVec 2) (cap : Nat) (s : State) :
    (raiseFault code cap s).aborts = s.aborts + 1 := rfl

@[simp] theorem accept_cfg (rest : List HostMove) (s : State) :
    (s.accept rest).cfg = s.cfg := rfl
@[simp] theorem accept_backlog (rest : List HostMove) (s : State) :
    (s.accept rest).backlog = s.backlog := rfl
@[simp] theorem accept_fault (rest : List HostMove) (s : State) :
    (s.accept rest).fault = s.fault := rfl
@[simp] theorem accept_fcode (rest : List HostMove) (s : State) :
    (s.accept rest).fcode = s.fcode := rfl
@[simp] theorem accept_refused (rest : List HostMove) (s : State) :
    (s.accept rest).refused = s.refused := rfl
@[simp] theorem accept_rsp (rest : List HostMove) (s : State) :
    (s.accept rest).rsp = none := rfl
@[simp] theorem accept_ann (rest : List HostMove) (s : State) :
    (s.accept rest).ann = [] := rfl
@[simp] theorem accept_src (rest : List HostMove) (s : State) :
    (s.accept rest).src = s.src := rfl
@[simp] theorem accept_out (rest : List HostMove) (s : State) :
    (s.accept rest).out = s.out := rfl
@[simp] theorem accept_host (rest : List HostMove) (s : State) :
    (s.accept rest).host = rest := rfl
@[simp] theorem accept_aborts (rest : List HostMove) (s : State) :
    (s.accept rest).aborts = s.aborts := rfl

@[simp] theorem refuseWord_cfg (s : State) :
    (refuseWord s).cfg = s.cfg := rfl
@[simp] theorem refuseWord_backlog (s : State) :
    (refuseWord s).backlog = s.backlog := rfl
@[simp] theorem refuseWord_fault (s : State) :
    (refuseWord s).fault = s.fault := rfl
@[simp] theorem refuseWord_fcode (s : State) :
    (refuseWord s).fcode = s.fcode := rfl
@[simp] theorem refuseWord_refused (s : State) :
    (refuseWord s).refused = true := rfl
@[simp] theorem refuseWord_rsp (s : State) :
    (refuseWord s).rsp = s.rsp := rfl
@[simp] theorem refuseWord_ann (s : State) :
    (refuseWord s).ann = s.ann := rfl
@[simp] theorem refuseWord_src (s : State) :
    (refuseWord s).src = s.src := rfl
@[simp] theorem refuseWord_out (s : State) :
    (refuseWord s).out = s.out := rfl
@[simp] theorem refuseWord_host (s : State) :
    (refuseWord s).host = s.host := rfl
@[simp] theorem refuseWord_aborts (s : State) :
    (refuseWord s).aborts = s.aborts := rfl

@[simp] theorem appendItem_cfg (item : Item) (rest : List HostMove) (s : State) :
    (appendItem item rest s).cfg = s.cfg := rfl
@[simp] theorem appendItem_backlog (item : Item) (rest : List HostMove) (s : State) :
    (appendItem item rest s).backlog = s.backlog := rfl
@[simp] theorem appendItem_fault (item : Item) (rest : List HostMove) (s : State) :
    (appendItem item rest s).fault = s.fault := rfl
@[simp] theorem appendItem_fcode (item : Item) (rest : List HostMove) (s : State) :
    (appendItem item rest s).fcode = s.fcode := rfl
@[simp] theorem appendItem_refused (item : Item) (rest : List HostMove) (s : State) :
    (appendItem item rest s).refused = s.refused := rfl
@[simp] theorem appendItem_rsp (item : Item) (rest : List HostMove) (s : State) :
    (appendItem item rest s).rsp = s.rsp := rfl
@[simp] theorem appendItem_ann (item : Item) (rest : List HostMove) (s : State) :
    (appendItem item rest s).ann = s.ann := rfl
@[simp] theorem appendItem_src (item : Item) (rest : List HostMove) (s : State) :
    (appendItem item rest s).src = s.src ++ [item] := rfl
@[simp] theorem appendItem_out (item : Item) (rest : List HostMove) (s : State) :
    (appendItem item rest s).out = s.out := rfl
@[simp] theorem appendItem_host (item : Item) (rest : List HostMove) (s : State) :
    (appendItem item rest s).host = rest := rfl
@[simp] theorem appendItem_aborts (item : Item) (rest : List HostMove) (s : State) :
    (appendItem item rest s).aborts = s.aborts := rfl

@[simp] theorem supplyBuffer_cfg (cells : List (Nat × Bit)) (rest : List HostMove) (s : State) :
    (supplyBuffer cells rest s).cfg = s.cfg := rfl
@[simp] theorem supplyBuffer_backlog (cells : List (Nat × Bit)) (rest : List HostMove) (s : State) :
    (supplyBuffer cells rest s).backlog = s.backlog := rfl
@[simp] theorem supplyBuffer_fault (cells : List (Nat × Bit)) (rest : List HostMove) (s : State) :
    (supplyBuffer cells rest s).fault = s.fault := rfl
@[simp] theorem supplyBuffer_fcode (cells : List (Nat × Bit)) (rest : List HostMove) (s : State) :
    (supplyBuffer cells rest s).fcode = s.fcode := rfl
@[simp] theorem supplyBuffer_refused (cells : List (Nat × Bit)) (rest : List HostMove) (s : State) :
    (supplyBuffer cells rest s).refused = s.refused := rfl
@[simp] theorem supplyBuffer_rsp (cells : List (Nat × Bit)) (rest : List HostMove) (s : State) :
    (supplyBuffer cells rest s).rsp = s.rsp := rfl
@[simp] theorem supplyBuffer_ann (cells : List (Nat × Bit)) (rest : List HostMove) (s : State) :
    (supplyBuffer cells rest s).ann = s.ann := rfl
@[simp] theorem supplyBuffer_src (cells : List (Nat × Bit)) (rest : List HostMove) (s : State) :
    (supplyBuffer cells rest s).src = s.src := rfl
@[simp] theorem supplyBuffer_out (cells : List (Nat × Bit)) (rest : List HostMove) (s : State) :
    (supplyBuffer cells rest s).out = Egress.ofDriver cells := rfl
@[simp] theorem supplyBuffer_host (cells : List (Nat × Bit)) (rest : List HostMove) (s : State) :
    (supplyBuffer cells rest s).host = rest := rfl
@[simp] theorem supplyBuffer_aborts (cells : List (Nat × Bit)) (rest : List HostMove) (s : State) :
    (supplyBuffer cells rest s).aborts = s.aborts := rfl

@[simp] theorem withFetchWord_cfg (s : State) (nbits w : Nat) :
    (s.withFetchWord nbits w).cfg = s.cfg := rfl
@[simp] theorem withFetchWord_backlog (s : State) (nbits w : Nat) :
    (s.withFetchWord nbits w).backlog = s.backlog := rfl
@[simp] theorem withFetchWord_fault (s : State) (nbits w : Nat) :
    (s.withFetchWord nbits w).fault = s.fault := rfl
@[simp] theorem withFetchWord_fcode (s : State) (nbits w : Nat) :
    (s.withFetchWord nbits w).fcode = s.fcode := rfl
@[simp] theorem withFetchWord_refused (s : State) (nbits w : Nat) :
    (s.withFetchWord nbits w).refused = s.refused := rfl
@[simp] theorem withFetchWord_rsp (s : State) (nbits w : Nat) :
    (s.withFetchWord nbits w).rsp = s.rsp := rfl
@[simp] theorem withFetchWord_ann (s : State) (nbits w : Nat) :
    (s.withFetchWord nbits w).ann = s.ann := rfl
@[simp] theorem withFetchWord_src (s : State) (nbits w : Nat) :
    (s.withFetchWord nbits w).src = s.src := rfl
@[simp] theorem withFetchWord_out (s : State) (nbits w : Nat) :
    (s.withFetchWord nbits w).out = s.out := rfl
@[simp] theorem withFetchWord_host (s : State) (nbits w : Nat) :
    (s.withFetchWord nbits w).host = .command (tableWord nbits w) :: s.host := rfl
@[simp] theorem withFetchWord_aborts (s : State) (nbits w : Nat) :
    (s.withFetchWord nbits w).aborts = s.aborts := rfl

@[simp] theorem initial_cfg (c : Config) :
    (State.initial c).cfg = c := rfl
@[simp] theorem initial_backlog (c : Config) :
    (State.initial c).backlog = [] := rfl
@[simp] theorem initial_fault (c : Config) :
    (State.initial c).fault = false := rfl
@[simp] theorem initial_fcode (c : Config) :
    (State.initial c).fcode = 0b00#2 := rfl
@[simp] theorem initial_refused (c : Config) :
    (State.initial c).refused = false := rfl
@[simp] theorem initial_rsp (c : Config) :
    (State.initial c).rsp = none := rfl
@[simp] theorem initial_ann (c : Config) :
    (State.initial c).ann = [] := rfl
@[simp] theorem initial_src (c : Config) :
    (State.initial c).src = [] := rfl
@[simp] theorem initial_out (c : Config) :
    (State.initial c).out = Egress.empty := rfl
@[simp] theorem initial_host (c : Config) :
    (State.initial c).host = [] := rfl
@[simp] theorem initial_aborts (c : Config) :
    (State.initial c).aborts = 0 := rfl

@[simp] theorem respond_draining (n : Nat) (s : State) : (respond n s).draining = s.draining := rfl
@[simp] theorem deliver_draining (e : Emission) (s : State) : (deliver e s).draining = s.draining := rfl
@[simp] theorem accept_draining (rest : List HostMove) (s : State) : (s.accept rest).draining = s.draining := rfl

@[simp] theorem start_off (s : State) : (Emission.start s).off = 0 := rfl
@[simp] theorem start_ann (s : State) : (Emission.start s).ann = [] := rfl
@[simp] theorem start_out (s : State) : (Emission.start s).out = s.out := rfl

@[simp] theorem emitFrame_off (cfg : Config) (f : Frame) (e : Emission) :
    (emitFrame cfg f e).off = e.off + f.length := rfl
@[simp] theorem emitFrame_ann (cfg : Config) (f : Frame) (e : Emission) :
    (emitFrame cfg f e).ann = e.ann ++ [annotation cfg e.off f.length] := rfl
@[simp] theorem emitFrame_out (cfg : Config) (f : Frame) (e : Emission) :
    (emitFrame cfg f e).out = e.out.write e.off f := rfl

@[simp] theorem annotation_offset (cfg : Config) (o n : Nat) : (annotation cfg o n).offset = o := rfl
@[simp] theorem annotation_length (cfg : Config) (o n : Nat) : (annotation cfg o n).length = n := rfl
@[simp] theorem annotation_key (cfg : Config) (o n : Nat) : (annotation cfg o n).key = cfg.tagKey := rfl
@[simp] theorem annotation_srcid (cfg : Config) (o n : Nat) : (annotation cfg o n).srcid = cfg.originId := rfl

/-- The bit DRAINING of an empty backlog. -/
theorem draining_eq_false {s : State} (h : s.backlog = []) : s.draining = false := by
  simp [State.draining, State.sched, h]

/-- The bit DRAINING of a backlog that holds a frame. -/
theorem draining_eq_true {s : State} (h : s.backlog ≠ []) : s.draining = true := by
  simp [State.draining, State.sched, h]

theorem draining_eq (s : State) : s.draining = !s.backlog.isEmpty := by
  cases h : s.backlog <;> simp [State.draining, State.sched, h]

end Sys2Proof.Machine
end

