-- ==== Sys2Proof/Laws/Produce.lean ====
section
/-! SUPPORT. What PRODUCE and RESET can do, said once: the drain phase, the fetch phase and the whole command. -/

namespace Sys2Proof.Machine

/-! The fields of what a PRODUCE leaves. -/

@[simp] theorem emitted_cfg (s : State) (fs bl : List Frame) (src : List Item) :
    (s.emitted fs bl src).cfg = s.cfg := rfl
@[simp] theorem emitted_backlog (s : State) (fs bl : List Frame) (src : List Item) :
    (s.emitted fs bl src).backlog = bl := rfl
@[simp] theorem emitted_fault (s : State) (fs bl : List Frame) (src : List Item) :
    (s.emitted fs bl src).fault = s.fault := rfl
@[simp] theorem emitted_fcode (s : State) (fs bl : List Frame) (src : List Item) :
    (s.emitted fs bl src).fcode = s.fcode := rfl
@[simp] theorem emitted_refused (s : State) (fs bl : List Frame) (src : List Item) :
    (s.emitted fs bl src).refused = s.refused := rfl
@[simp] theorem emitted_rsp (s : State) (fs bl : List Frame) (src : List Item) :
    (s.emitted fs bl src).rsp = some (rspWord s.fcode s.fault (!bl.isEmpty) (BitVec.ofNat 28 fs.flatten.length)) := rfl
@[simp] theorem emitted_ann (s : State) (fs bl : List Frame) (src : List Item) :
    (s.emitted fs bl src).ann = layout s.cfg 0 fs := rfl
@[simp] theorem emitted_src (s : State) (fs bl : List Frame) (src : List Item) :
    (s.emitted fs bl src).src = src := rfl
@[simp] theorem emitted_out (s : State) (fs bl : List Frame) (src : List Item) :
    (s.emitted fs bl src).out = s.out.write 0 fs.flatten := rfl
@[simp] theorem emitted_host (s : State) (fs bl : List Frame) (src : List Item) :
    (s.emitted fs bl src).host = s.host := rfl
@[simp] theorem emitted_aborts (s : State) (fs bl : List Frame) (src : List Item) :
    (s.emitted fs bl src).aborts = s.aborts := rfl

@[simp] theorem faulted_cfg (s : State) (code : BitVec 2) (cap : Nat) (src : List Item) :
    (s.faulted code cap src).cfg = s.cfg := rfl
@[simp] theorem faulted_backlog (s : State) (code : BitVec 2) (cap : Nat) (src : List Item) :
    (s.faulted code cap src).backlog = [] := rfl
@[simp] theorem faulted_fault (s : State) (code : BitVec 2) (cap : Nat) (src : List Item) :
    (s.faulted code cap src).fault = true := rfl
@[simp] theorem faulted_fcode (s : State) (code : BitVec 2) (cap : Nat) (src : List Item) :
    (s.faulted code cap src).fcode = code := rfl
@[simp] theorem faulted_refused (s : State) (code : BitVec 2) (cap : Nat) (src : List Item) :
    (s.faulted code cap src).refused = s.refused := rfl
@[simp] theorem faulted_rsp (s : State) (code : BitVec 2) (cap : Nat) (src : List Item) :
    (s.faulted code cap src).rsp = some (rspWord code true false 0#28) := rfl
@[simp] theorem faulted_ann (s : State) (code : BitVec 2) (cap : Nat) (src : List Item) :
    (s.faulted code cap src).ann = [] := rfl
@[simp] theorem faulted_src (s : State) (code : BitVec 2) (cap : Nat) (src : List Item) :
    (s.faulted code cap src).src = src := rfl
@[simp] theorem faulted_out (s : State) (code : BitVec 2) (cap : Nat) (src : List Item) :
    (s.faulted code cap src).out = s.out.abort s.aborts cap := rfl
@[simp] theorem faulted_host (s : State) (code : BitVec 2) (cap : Nat) (src : List Item) :
    (s.faulted code cap src).host = s.host := rfl
@[simp] theorem faulted_aborts (s : State) (code : BitVec 2) (cap : Nat) (src : List Item) :
    (s.faulted code cap src).aborts = s.aborts + 1 := rfl

/-! Where frames lie. -/

@[simp] theorem layout_nil (cfg : Config) (off : Nat) : layout cfg off [] = [] := rfl

@[simp] theorem layout_cons (cfg : Config) (off : Nat) (f : Frame) (fs : List Frame) :
    layout cfg off (f :: fs) = annotation cfg off f.length :: layout cfg (off + f.length) fs := rfl

theorem layout_append (cfg : Config) (fs gs : List Frame) (off : Nat) :
    layout cfg off (fs ++ gs) = layout cfg off fs ++ layout cfg (off + fs.flatten.length) gs := by
  induction fs generalizing off with
  | nil => simp
  | cons f fs ih => simp [ih, Nat.add_assoc]

theorem layout_lengths (cfg : Config) (fs : List Frame) (off : Nat) :
    (layout cfg off fs).map Annotation.length = fs.map List.length := by
  induction fs generalizing off with
  | nil => rfl
  | cons f fs ih => simp [ih]

theorem layout_sum (cfg : Config) (fs : List Frame) (off : Nat) :
    ((layout cfg off fs).map Annotation.length).sum = fs.flatten.length := by
  rw [layout_lengths, List.length_flatten]

theorem length_layout (cfg : Config) (fs : List Frame) (off : Nat) : (layout cfg off fs).length = fs.length := by
  simpa using congrArg List.length (layout_lengths cfg fs off)

/-- Frames of at least the shortest length lie as the invariant says. -/
theorem contiguous_layout (cfg : Config) (fs : List Frame) (off : Nat)
    (h : ∀ f ∈ fs, cfg.txDelay + 32 ≤ f.length) : contiguous cfg off (layout cfg off fs) := by
  induction fs generalizing off with
  | nil => trivial
  | cons f fs ih =>
    exact ⟨rfl, rfl, rfl, h f (by simp), ih _ fun g hg => h g (by simp [hg])⟩

/-- The length of frames with one more at the end. -/
theorem length_flatten_concat (fs : List Frame) (f : Frame) :
    (fs ++ [f]).flatten.length = fs.flatten.length + f.length := by
  rw [List.flatten_append, List.length_append]
  simp

/-! The emission. -/

/-- The emission that has put out the frames `fs` from the state `s` on. -/
def emission (s : State) (fs : List Frame) : Emission where
  off := fs.flatten.length
  ann := layout s.cfg 0 fs
  out := s.out.write 0 fs.flatten

@[simp] theorem emission_off (s : State) (fs : List Frame) : (emission s fs).off = fs.flatten.length := rfl
@[simp] theorem emission_ann (s : State) (fs : List Frame) : (emission s fs).ann = layout s.cfg 0 fs := rfl
@[simp] theorem emission_out (s : State) (fs : List Frame) : (emission s fs).out = s.out.write 0 fs.flatten := rfl

theorem start_eq_emission (s : State) : Emission.start s = emission s [] := rfl

/-- Emitting one more frame. -/
theorem emitFrame_emission (s : State) (fs : List Frame) (f : Frame) :
    emitFrame s.cfg f (emission s fs) = emission s (fs ++ [f]) := by
  have hw := write_write s.out 0 fs.flatten f
  simp only [Nat.zero_add] at hw
  simp [emitFrame, emission, layout_append, hw, -List.length_flatten]

/-- The drain phase from the emission of `fs` on: some whole frames leave the front, and the first that stays does
not fit (R142). -/
theorem drain_emission (s : State) (cap : Nat) (l fs : List Frame) (h : fs.flatten.length ≤ cap) :
    ∃ ds left, l = ds ++ left ∧ drain s.cfg cap l (emission s fs) = (left, emission s (fs ++ ds)) ∧
      (fs ++ ds).flatten.length ≤ cap ∧
      ∀ f gs, left = f :: gs → cap - (fs ++ ds).flatten.length < f.length := by
  induction l generalizing fs with
  | nil => exact ⟨[], [], rfl, by simp [drain], by simpa using h, by simp⟩
  | cons f l ih =>
    by_cases hf : fits cap (emission s fs).off f.length = true
    · have hle : (fs ++ [f]).flatten.length ≤ cap := by
        have := fits_iff.mp hf
        rw [emission_off] at this
        rw [length_flatten_concat]
        omega
      obtain ⟨ds, left, rfl, hd, hle', hno⟩ := ih (fs ++ [f]) hle
      refine ⟨f :: ds, left, rfl, ?_, by simpa using hle', by simpa using hno⟩
      rw [drain, if_pos hf, emitFrame_emission, hd]
      simp
    · have hf' := Bool.eq_false_iff.mpr hf
      refine ⟨[], f :: l, rfl, by rw [drain, if_neg hf, List.append_nil], by simpa using h, ?_⟩
      rintro g gs hg
      obtain ⟨rfl, rfl⟩ := List.cons.inj hg
      simpa using not_fits_iff.mp hf'

/-- A drain phase in which every frame fits (R142). -/
theorem drain_all (s : State) (cap : Nat) (l fs : List Frame) (h : (fs ++ l).flatten.length ≤ cap) :
    drain s.cfg cap l (emission s fs) = ([], emission s (fs ++ l)) := by
  induction l generalizing fs with
  | nil => simp [drain]
  | cons f l ih =>
    have hf : fits cap (emission s fs).off f.length = true := by
      rw [fits_iff, emission_off]
      rw [List.flatten_append, List.length_append, List.flatten_cons, List.length_append] at h
      omega
    rw [drain, if_pos hf, emitFrame_emission, ih _ (by simpa using h)]
    simp

/-- A drain phase that stops at the first frame (R142). -/
theorem drain_none (cfg : Config) (cap : Nat) (f : Frame) (l : List Frame) (e : Emission)
    (h : cap - e.off < f.length) : drain cfg cap (f :: l) e = (f :: l, e) := by
  rw [drain, not_fits_iff.mpr h]
  simp

/-! Responding. -/

theorem respond_deliver (s : State) (fs bl : List Frame) (src : List Item) :
    respond (emission s fs).off (deliver (emission s fs) { s with backlog := bl, src := src }) =
      s.emitted fs bl src := by
  simp [respond, deliver, emission, State.emitted, draining_eq]

theorem raiseFault_eq (code : BitVec 2) (cap : Nat) (s : State) (src : List Item) :
    raiseFault code cap { s with backlog := [], src := src } = s.faulted code cap src := by
  simp only [raiseFault, respond, State.faulted]
  rfl

/-! The fetch phase, case by case (R143). -/

theorem fetch_none {s : State} (cap : Nat) (fs : List Frame) (h : s.src = []) :
    fetch cap (emission s fs) { s with backlog := [] } = s.emitted fs [] [] := by
  have := respond_deliver s fs [] s.src
  simp only [fetch, sourcePull, h] at this ⊢
  simpa [h] using this

theorem fetch_malformed {s : State} {rest : List Item} (cap : Nat) (e : Emission)
    (h : s.src = .malformed :: rest) :
    fetch cap e { s with backlog := [] } = s.faulted codeMalformed cap rest := by
  simp only [fetch, sourcePull, h]
  exact raiseFault_eq codeMalformed cap s rest

theorem fetch_tooLong {s : State} {hint : Option Nat} {p : List Byte} {rest : List Item} (cap : Nat) (e : Emission)
    (h : s.src = .blob hint p :: rest) (hp : tooLong s.cfg p = true) :
    fetch cap e { s with backlog := [] } = s.faulted codeTooLong cap rest := by
  simp only [fetch, sourcePull, h, hp, if_true]
  exact raiseFault_eq codeTooLong cap s rest

theorem fetch_emits {s : State} {hint : Option Nat} {p : List Byte} {rest : List Item} {cap : Nat}
    {fs : List Frame} (h : s.src = .blob hint p :: rest) (hp : tooLong s.cfg p = false)
    (hf : (build s.cfg p).length ≤ cap - fs.flatten.length) :
    fetch cap (emission s fs) { s with backlog := [] } = s.emitted (fs ++ [build s.cfg p]) [] rest := by
  have hf' : fits cap (emission s fs).off (build s.cfg p).length = true := fits_iff.mpr hf
  simp only [fetch, sourcePull, h, hp, emitOrQueue, hf', if_true, Bool.false_eq_true, if_false]
  rw [emitFrame_emission]
  exact respond_deliver s _ [] rest

theorem fetch_queues {s : State} {hint : Option Nat} {p : List Byte} {rest : List Item} {cap : Nat}
    {fs : List Frame} (h : s.src = .blob hint p :: rest) (hp : tooLong s.cfg p = false)
    (hf : cap - fs.flatten.length < (build s.cfg p).length) :
    fetch cap (emission s fs) { s with backlog := [] } = s.emitted fs [build s.cfg p] rest := by
  have hf' : fits cap (emission s fs).off (build s.cfg p).length = false := not_fits_iff.mpr hf
  simp only [fetch, sourcePull, h, hp, emitOrQueue, hf', Bool.false_eq_true, if_false]
  exact respond_deliver s fs [build s.cfg p] rest

/-! The whole command. -/

/-- A PRODUCE of a faulted block (R150). -/
theorem execProduce_inert {s : State} (imm : BitVec 28) (h : s.fault = true) :
    execProduce imm s = .next (respond 0 { s with ann := [] }) := by
  simp [execProduce, h]

/-- A PRODUCE whose drain phase empties the backlog goes on to the fetch phase (R143). -/
theorem execProduce_drained {s : State} {imm : BitVec 28} (h : s.fault = false)
    (hb : s.backlog.flatten.length ≤ capacity imm) :
    execProduce imm s =
      .next (fetch (capacity imm) (emission s s.backlog) { s with backlog := [] }) := by
  have hd := drain_all s (capacity imm) s.backlog [] (by simpa using hb)
  rw [← start_eq_emission, List.nil_append] at hd
  simp [execProduce, h, produceLive, hd]

/-- Everything a PRODUCE can do. `ds` are the frames it drains. -/
theorem execProduce_cases {s t : State} {imm : BitVec 28} (h : execProduce imm s = .next t) :
    (s.fault = true ∧ t = respond 0 { s with ann := [] }) ∨
    (s.fault = false ∧ ∃ ds f gs, s.backlog = ds ++ f :: gs ∧ ds.flatten.length ≤ capacity imm ∧
      capacity imm - ds.flatten.length < f.length ∧ t = s.emitted ds (f :: gs) s.src) ∨
    (s.fault = false ∧ s.backlog.flatten.length ≤ capacity imm ∧
      ((s.src = [] ∧ t = s.emitted s.backlog [] []) ∨
       (∃ rest, s.src = .malformed :: rest ∧ t = s.faulted codeMalformed (capacity imm) rest) ∨
       (∃ hint p rest, s.src = .blob hint p :: rest ∧ tooLong s.cfg p = true ∧
          t = s.faulted codeTooLong (capacity imm) rest) ∨
       (∃ hint p rest, s.src = .blob hint p :: rest ∧ tooLong s.cfg p = false ∧
          (s.backlog ++ [build s.cfg p]).flatten.length ≤ capacity imm ∧
          t = s.emitted (s.backlog ++ [build s.cfg p]) [] rest) ∨
       (∃ hint p rest, s.src = .blob hint p :: rest ∧ tooLong s.cfg p = false ∧
          capacity imm < (s.backlog ++ [build s.cfg p]).flatten.length ∧
          t = s.emitted s.backlog [build s.cfg p] rest))) := by
  cases hfault : s.fault with
  | true =>
    rw [execProduce_inert imm hfault] at h
    exact .inl ⟨rfl, by rw [← hfault]; exact (Host.Outcome.next.inj h).symm⟩
  | false =>
    obtain ⟨ds, left, hb, hd, hle, hno⟩ := drain_emission s (capacity imm) s.backlog [] (by simp)
    rw [← start_eq_emission, List.nil_append] at hd
    rw [List.nil_append] at hle hno
    have ht : t = produceLive (capacity imm) s := by
      simpa [execProduce, hfault] using h.symm
    cases left with
    | cons f gs =>
      refine .inr (.inl ⟨rfl, ds, f, gs, hb, hle, hno f gs rfl, ?_⟩)
      rw [ht, produceLive, hd]
      exact respond_deliver s ds (f :: gs) s.src
    | nil =>
      rw [List.append_nil] at hb
      subst hb
      refine .inr (.inr ⟨rfl, hle, ?_⟩)
      rw [produceLive, hd] at ht
      simp only at ht
      match hs : s.src with
      | [] => exact .inl ⟨rfl, ht.trans (fetch_none _ _ hs)⟩
      | .malformed :: rest => exact .inr (.inl ⟨rest, rfl, ht.trans (fetch_malformed _ _ hs)⟩)
      | .blob hint p :: rest =>
        cases hp : tooLong s.cfg p with
        | true => exact .inr (.inr (.inl ⟨hint, p, rest, rfl, hp, ht.trans (fetch_tooLong _ _ hs hp)⟩))
        | false =>
          by_cases hf : (build s.cfg p).length ≤ capacity imm - s.backlog.flatten.length
          · refine .inr (.inr (.inr (.inl ⟨hint, p, rest, rfl, hp, ?_, ht.trans (fetch_emits hs hp hf)⟩)))
            rw [length_flatten_concat]
            omega
          · refine .inr (.inr (.inr (.inr ⟨hint, p, rest, rfl, hp, ?_, ht.trans (fetch_queues hs hp (by omega))⟩)))
            rw [length_flatten_concat]
            omega

/-- PRODUCE always answers a next state (R149). -/
theorem execProduce_next (imm : BitVec 28) (s : State) : ∃ t, execProduce imm s = .next t := by
  unfold execProduce
  split <;> exact ⟨_, rfl⟩

/-- Everything RESET does (R170). -/
theorem execReset_eq (s : State) :
    execReset s = .next { s with
      backlog := [], fault := false, fcode := 0b00#2, rsp := some 0x00000000#32, ann := [] } := rfl

/-! What the driver reads after it. -/

/-- The bits a PRODUCE that emitted the frames `fs` returns are the frames (R146). -/
theorem returned_emitted {s : State} {fs bl : List Frame} {src : List Item} {imm : BitVec 28}
    (h : fs.flatten.length ≤ capacity imm) : (s.emitted fs bl src).returned = fs.flatten := by
  simp only [State.returned, State.emitted, rspN_rspWord, toNat_ofNat_of_le_capacity h]
  exact readRange_write s.out 0 fs.flatten

@[simp] theorem returned_faulted (s : State) (code : BitVec 2) (cap : Nat) (src : List Item) :
    (s.faulted code cap src).returned = [] := by
  simp [State.returned, State.faulted, Egress.readRange]

end Sys2Proof.Machine
end

