-- ==== Sys2Proof/Laws/Step.lean ====
section
/-! SUPPORT. What a step can do, said once. -/

namespace Sys2Proof.Machine

/-- Everything a step can do. -/
theorem step_cases {s t : State} (h : step s = .next t) :
    (s.host = [] ∧ t = s) ∨
    (∃ w rest i, s.host = .command w :: rest ∧ decode w = .ok i ∧ exec i (s.accept rest) = .next t) ∨
    (∃ w rest r, s.host = .command w :: rest ∧ decode w = .error r ∧ t = refuseWord (s.accept rest)) ∨
    (∃ item rest, s.host = .append item :: rest ∧ t = appendItem item rest s) ∨
    (∃ cells rest, s.host = .supply cells :: rest ∧ t = supplyBuffer cells rest s) := by
  unfold step at h
  match hh : s.host with
  | [] =>
    rw [hh] at h
    exact .inl ⟨rfl, (Host.Outcome.next.inj h).symm⟩
  | .command w :: rest =>
    simp only [hh] at h
    cases hd : decode w with
    | ok i =>
      simp only [hd] at h
      exact .inr (.inl ⟨w, rest, i, rfl, hd, h⟩)
    | error r =>
      simp only [hd] at h
      exact .inr (.inr (.inl ⟨w, rest, r, rfl, hd, (Host.Outcome.next.inj h).symm⟩))
  | .append item :: rest =>
    simp only [hh] at h
    exact .inr (.inr (.inr (.inl ⟨item, rest, rfl, (Host.Outcome.next.inj h).symm⟩)))
  | .supply cells :: rest =>
    simp only [hh] at h
    exact .inr (.inr (.inr (.inr ⟨cells, rest, rfl, (Host.Outcome.next.inj h).symm⟩)))

/-- Every command answers a next state. -/
theorem exec_next (i : Instr) (s : State) : ∃ t, exec i s = .next t := by
  cases i with
  | produce imm => exact execProduce_next imm s
  | reset => exact ⟨_, execReset_eq s⟩

/-- A command leaves the moves to come as they are. -/
theorem exec_host {i : Instr} {s t : State} (h : exec i s = .next t) : t.host = s.host := by
  cases i with
  | reset => rw [← Host.Outcome.next.inj h]
  | produce imm =>
    obtain ⟨-, rfl⟩ | ⟨-, ds, f, gs, -, -, -, rfl⟩ | ⟨-, -, ⟨-, rfl⟩ | ⟨_, -, rfl⟩ | ⟨_, _, _, -, -, rfl⟩ |
      ⟨_, _, _, -, -, -, rfl⟩ | ⟨_, _, _, -, -, -, rfl⟩⟩ := execProduce_cases h <;> rfl

/-- A step takes the first of the moves to come. -/
theorem step_host {s t : State} (h : step s = .next t) : t.host = s.host.tail := by
  obtain ⟨hh, rfl⟩ | ⟨w, rest, i, hh, -, he⟩ | ⟨w, rest, r, hh, -, rfl⟩ | ⟨item, rest, hh, rfl⟩ |
    ⟨cells, rest, hh, rfl⟩ := step_cases h
  · simp [hh]
  · rw [exec_host he, hh]
    rfl
  · simp [hh]
  · simp [hh]
  · simp [hh]

/-! Runs and traces, one step at a time. -/

@[simp] theorem run_zero (s : State) : core.run 0 s = .next s := rfl

theorem run_succ {s t : State} (h : step s = .next t) (k : Nat) : core.run (k + 1) s = core.run k t := by
  have hc : core.step s = .next t := h
  simp only [Host.Core.run, hc]

theorem runOutput_succ {s t : State} (h : step s = .next t) (k : Nat) :
    runOutput (k + 1) s = stepOutput s t ++ runOutput k t := by
  simp [runOutput, h]

theorem runBuilt_succ {s t : State} (h : step s = .next t) (k : Nat) :
    runBuilt (k + 1) s = stepBuilt s t ++ runBuilt k t := by
  simp [runBuilt, h]

end Sys2Proof.Machine
end

