-- ==== Sys2Proof/Tests/Slice0.lean ====
section
/-! SUPPORT. The model's own tests: the checks refuse ill-formed terms, words and vectors written out from the spec,
and for every statement with hypotheses a state and operands that meet them. -/

namespace Sys2Proof.Tests

open Sys2Proof.Machine

/-! Small configurations and states. -/

/-- `n` binary digits of `v`, the leftmost first: `bits 4 0b0111` is the sequence 0111 of the spec's notation (R9). -/
def bits : Nat → Nat → Bits
  | 0, _ => []
  | n + 1, v => v.testBit n :: bits n v

/-- A configuration with `tx_delay` and a limit on the payload. -/
def cfg (txDelay : Nat) (maxPayload : Option Nat) : Config :=
  { txDelay := txDelay, tagKey := ⟨"t"⟩, originId := ⟨"o"⟩, txdMax := none, maxPayloadBytes := maxPayload,
    backlogDepth := 1 }

/-- A constructed block with `tx_delay = 0` and items in the source. -/
def fed (src : List Item) : State := { State.initial (cfg 0 none) with src := src }

/-- A block with a limit of two bytes. -/
def limited (src : List Item) : State := { State.initial (cfg 0 (some 2)) with src := src }

/-- `fed`, with the 32-bit frame of the empty payload queued. -/
def queued (src : List Item) : State := { fed src with backlog := [build (cfg 0 none) []] }

/-- A faulted block. -/
def broken (src : List Item) : State := { fed src with fault := true, fcode := codeMalformed }

/-- A block with moves of the host to come. -/
def moved (s : State) (moves : List HostMove) : State := { s with host := moves }

/-- What an outcome leaves, seen by `f`. -/
def seen {α : Type} (o : Host.Outcome State Fault Refusal) (f : State → α) : Option α :=
  match o with
  | .next t => some (f t)
  | _ => none

/-! Ill-formed terms are refused. -/

theorem test_asm_range : AsmLine.wellFormed (.produce 268435456) = false ∧
    AsmLine.wellFormed (.produce 268435455) = true ∧ assemble (.produce 268435456) = none := by decide

/-- A `tx_delay` above a bounded TXD_MAX (R23). -/
theorem test_config_txd_max : Config.wellFormed { cfg 5 none with txdMax := some 4 } = false ∧
    Config.wellFormed { cfg 4 none with txdMax := some 4 } = true := by decide

/-- A backlog of depth 0 (R7). -/
theorem test_config_depth : Config.wellFormed { cfg 0 none with backlogDepth := 0 } = false := by decide

/-- The type of the operand leaves no ill-formed instruction (R73): the largest is well formed. -/
theorem test_instr_wf : Instr.wellFormed (.produce 268435455#28) = true ∧ Instr.wellFormed .reset = true := by decide

/-- Cells out of order, or twice, are not canonical; nor is an older fault region inside a newer one. -/
theorem test_egress_wf : Egress.wf ⟨[(3, true), (2, true)], []⟩ = false ∧
    Egress.wf ⟨[(3, true), (3, false)], []⟩ = false ∧ Egress.wf ⟨[], [⟨0, 8⟩, ⟨1, 8⟩]⟩ = false ∧
    Egress.wf ⟨[], [⟨0, 0⟩]⟩ = false ∧ Egress.wf ⟨[(2, true), (3, false)], [⟨1, 4⟩, ⟨0, 8⟩]⟩ = true := by decide

/-! Encodings (R71 to R75, V-ENC-1 to V-ENC-8). -/

/-- OPC 0001, IMM28 = 100 = 0b1100100, bit by bit. -/
theorem test_decode_produce : decode 0b00010000000000000000000001100100#32 = .ok (.produce 100#28) := by rfl

theorem test_decode_produce_max : decode 0b00011111111111111111111111111111#32 = .ok (.produce 268435455#28) := by rfl

theorem test_decode_reset : decode 0b00100000000000000000000000000000#32 = .ok .reset := by rfl

theorem test_decode_reset_operand : decode 0x20000001#32 = .error (.resetOperand 1#28) := by rfl

theorem test_decode_reserved : decode 0x00000000#32 = .error (.opcode 0#4) ∧
    decode 0x30000000#32 = .error (.opcode 3#4) ∧ decode 0xFFFFFFFF#32 = .error (.opcode 15#4) := ⟨rfl, rfl, rfl⟩

theorem test_decode_table : decodeTableWord 32 0x10000000 = some (.produce 0#28) ∧
    decodeTableWord 32 0x20000000 = some .reset ∧ decodeTableWord 32 0x30000000 = none := by decide

theorem test_encode : encode (.produce 42#28) = 0x1000002A#32 ∧ encode .reset = 0x20000000#32 := by decide

/-- R79's examples. -/
theorem test_assemble : (parseAsm "PRODUCE 0x2A".toList).bind assemble = some 0x1000002A#32 ∧
    (parseAsm "PRODUCE 42 ; comment".toList).bind assemble = some 0x1000002A#32 ∧
    (parseAsm "RESET            ; 0x20000000".toList).bind assemble = some 0x20000000#32 := by decide

theorem test_assemble_refuses : parseAsm "produce 42".toList = none ∧ parseAsm "PRODUCE".toList = none ∧
    parseAsm "PRODUCE 0x".toList = none ∧ parseAsm "PRODUCE 4A".toList = none := by decide

/-! The datapath (95_test_vectors). -/

/-- V-CRC-5 and V-CRC-10. -/
theorem test_crc : crc16 [0x31, 0x32, 0x33, 0x34, 0x35, 0x36, 0x37, 0x38, 0x39] = 0x906E#16 ∧
    crc16 [0x12, 0x34] = 0xDEC1#16 := by decide +kernel

/-- V-UNP-9. -/
theorem test_unpack : unpack [0x12, 0x34] = bits 16 0b0100100000101100 := by decide

/-- V-STF-9, V-STF-15 and V-STF-16. -/
theorem test_stuff : stuff (bits 11 0b11111111111) = bits 13 0b1111101111101 ∧
    stuff (bits 16 0b0111111001111110) = bits 18 0b011111010011111010 ∧
    stuff (bits 11 0b11111011111) = bits 13 0b1111100111110 := by decide

/-- V-BLD-10, whose body ends with an inserted zero, and V-BLD-2. -/
theorem test_build : build (cfg 0 none) [0x88] = bits 41 0b01111110000100010001110000011111001111110 ∧
    build (cfg 4 none) [0x00] = bits 44 0b00000111111000000000000111100000111101111110 := by
  constructor <;> rfl

/-! One step. -/

/-- V-SRC-6's second command: drain and emit, `F00 ++ FFF`, with RSP = 0x52. -/
theorem test_produce_two :
    seen (step (moved { fed [.blob none [0xFF]] with backlog := [build (cfg 0 none) [0x00]] }
      [.command 0x10000052#32])) (fun t => (t.rsp, t.ann.map fun a => (a.offset, a.length))) =
      some (some 0x00000052#32, [(0, 40), (40, 42)]) := by decide

/-- V-SRC-5's second command: drain, then pull and queue, RSP = 0x10000028; the cell behind N keeps its bit. -/
theorem test_produce_drain_queue :
    seen (step (moved { fed [.blob none [0xFF]] with
        backlog := [build (cfg 0 none) [0x00]], out := Egress.ofDriver [(40, true)] }
      [.command 0x10000051#32])) (fun t => (t.rsp, t.returned, t.backlog.map List.length, t.out.read 40)) =
      some (some 0x10000028#32, bits 40 0b0111111000000000000111100000111101111110, [42], some true) := by decide

/-- V-FLT-3: the drained frame is lost, RSP = 0x60000000. -/
theorem test_fault_loses_drained :
    seen (step (moved (queued [.malformed]) [.command 0x10000064#32]))
      (fun t => (t.rsp, t.backlog.length, t.fcode, t.ann.length, t.src.length)) =
      some (some 0x60000000#32, 0, 0b01#2, 0, 0) := by decide

/-- V-FLT-4: code 2, RSP = 0xA0000000. -/
theorem test_fault_too_long :
    seen (step (moved (limited [.blob none [0, 1, 2]]) [.command 0x10000064#32])) (fun t => (t.rsp, t.fcode)) =
      some (some 0xA0000000#32, 0b10#2) := by decide

/-- V-RST-2's RESET: the fault is cleared and the source kept. -/
theorem test_reset_recovers :
    seen (step (moved (broken [.blob none [0]]) [.command 0x20000000#32])) (fun t => (t.rsp, t.fault, t.src.length)) =
      some (some 0#32, false, 1) := by decide

/-- A RESET keeps the mark of a reserved word (R170). -/
theorem test_reset_keeps_mark :
    seen (step (moved { queued [] with refused := true } [.command 0x20000000#32])) (fun t => (t.backlog, t.refused)) =
      some ([], true) := by decide

/-- A reserved word sets the mark, pulls nothing and gets no response (V-ENC-7). -/
theorem test_reserved_word :
    seen (step (moved (fed [.blob none [0]]) [.command 0x30000000#32])) (fun t => (t.refused, t.rsp, t.src.length)) =
      some (true, none, 1) := by decide

/-- The first command after reset. -/
theorem test_first_command :
    seen (step (State.reset.withFetchWord 32 0x1FFFFFFF)) (fun t => t.rsp) = some (some 0#32) ∧
    seen (step (State.reset.withFetchWord 32 0x20000000)) (fun t => t.rsp) = some (some 0#32) := by decide

/-! Witnesses: for each statement with hypotheses, a case that meets them all, at a boundary where there is one. -/

theorem witness_inv_fed (src : List Item) : Invariant (fed src) where
  legal := rfl
  depth := Nat.zero_le _
  frames := by intro f hf; cases hf
  cause := .inl ⟨rfl, rfl⟩
  faultedEmpty := by intro h; cases h
  answered := by intro r h; cases h
  silent := fun _ => rfl
  annCount := Nat.zero_le _
  annPlace := trivial
  buffer := rfl
  fresh := by intro r h; cases h

theorem witness_inv_queued (src : List Item) : Invariant (queued src) where
  legal := rfl
  depth := Nat.le_refl _
  frames := by
    intro f hf
    exact ⟨[], rfl, List.mem_singleton.mp hf⟩
  cause := .inl ⟨rfl, rfl⟩
  faultedEmpty := by intro h; cases h
  answered := by intro r h; cases h
  silent := fun _ => rfl
  annCount := Nat.zero_le _
  annPlace := trivial
  buffer := rfl
  fresh := by intro r h; cases h

theorem witness_AssembledWords : (268435455 ≤ 268435455) ∧ 268435455 < 268435456 := by decide

theorem witness_UnpackOrder : 1 < [0x00#8, 0x80#8].length ∧ 7 < 8 := by decide

theorem witness_StuffFiveOnesThenZero : stuff (ones 5) = [] ++ ones 5 ++ [false] := by decide

theorem witness_StuffSplits : ([] : Bits) = [] ∧ ∃ z, bits 3 0b110 = z ++ [false] := ⟨rfl, [true, true], by decide⟩

theorem witness_StuffTrailingRun : counterFrom 0 [] = 0 ∧ counterFrom 0 (ones 5) = 0 ∧ counterFrom 0 [false] = 0 := by
  decide

theorem witness_FramesTellPayloadsApart : build (cfg 3 none) [1] = build (cfg 3 none) [1] := rfl

theorem witness_CarriablePayloads_carried : (cfg 0 none).txDelay = 0 ∧
    (List.replicate 27962022 (0 : Byte)).length < 27962023 := ⟨rfl, by rw [List.length_replicate]; decide⟩

theorem witness_CarriablePayloads_stuck : 33554428 ≤ (List.replicate 33554428 (0 : Byte)).length := by
  rw [List.length_replicate]

theorem witness_CarriablePayloads_bounded : (cfg 0 (some 2)).maxPayloadBytes = some 2 ∧
    tooLong (cfg 0 (some 2)) [0, 0] = false := by decide

theorem witness_ProduceWhileFaulted : (broken []).fault = true := rfl

/-- A 32-bit frame and 31 bits. -/
theorem witness_ProduceStopsAtFrame : (queued []).fault = false ∧
    (queued []).backlog = [] ++ build (cfg 0 none) [] :: [] ∧ ([] : List Frame).flatten.length ≤ capacity 31#28 ∧
    capacity 31#28 - ([] : List Frame).flatten.length < (build (cfg 0 none) []).length := by decide

theorem witness_ProduceFindsNone : (queued []).fault = false ∧
    (queued []).backlog.flatten.length ≤ capacity 32#28 ∧ (queued []).src = [] := by decide

/-- An exact fit, behind a drained frame. -/
theorem witness_ProduceEmits : (queued [.blob none []]).fault = false ∧
    (queued [.blob none []]).src = .blob none [] :: [] ∧ tooLong (queued [.blob none []]).cfg [] = false ∧
    (queued [.blob none []]).backlog.flatten.length + (build (queued [.blob none []]).cfg []).length ≤
      capacity 64#28 := by decide

/-- One bit short, behind a drained frame. -/
theorem witness_ProduceQueues : (queued [.blob none []]).fault = false ∧
    (queued [.blob none []]).src = .blob none [] :: [] ∧ tooLong (queued [.blob none []]).cfg [] = false ∧
    (queued [.blob none []]).backlog.flatten.length ≤ capacity 63#28 ∧
    capacity 63#28 < (queued [.blob none []]).backlog.flatten.length +
      (build (queued [.blob none []]).cfg []).length := by decide

theorem witness_ProduceMalformed : (queued [.malformed]).fault = false ∧
    (queued [.malformed]).backlog.flatten.length ≤ capacity 32#28 ∧
    (queued [.malformed]).src = .malformed :: [] := by decide

/-- One byte over the limit. -/
theorem witness_ProduceTooLong : (limited [.blob none [0, 1, 2]]).fault = false ∧
    (limited [.blob none [0, 1, 2]]).backlog.flatten.length ≤ capacity 0#28 ∧
    (limited [.blob none [0, 1, 2]]).src = .blob none [0, 1, 2] :: [] ∧
    (limited [.blob none [0, 1, 2]]).cfg.maxPayloadBytes = some 2 ∧ 2 < [0x00#8, 0x01#8, 0x02#8].length := by decide

theorem witness_ProduceZero_blocked : Invariant (queued []) ∧ (queued []).fault = false ∧ (queued []).backlog ≠ [] :=
  ⟨witness_inv_queued [], rfl, by decide⟩

theorem witness_ProduceZero_none : Invariant (fed []) ∧ (fed []).fault = false ∧ (fed []).backlog = [] ∧ (fed []).src = [] :=
  ⟨witness_inv_fed [], rfl, rfl, rfl⟩

theorem witness_ProduceZero_queues : Invariant (fed [.blob none []]) ∧ (fed [.blob none []]).fault = false ∧
    (fed [.blob none []]).backlog = [] ∧ (fed [.blob none []]).src = .blob none [] :: [] ∧
    tooLong (fed [.blob none []]).cfg [] = false :=
  ⟨witness_inv_fed _, rfl, rfl, rfl, rfl⟩

/-- A blocked PRODUCE: the last clause of ProduceBounds. -/
theorem witness_ProduceBounds : Invariant (queued []) ∧ (queued []).fault = false ∧
    (queued []).backlog = build (cfg 0 none) [] :: [] ∧ capacity 31#28 < (build (cfg 0 none) []).length ∧
    ∃ t r, exec (.produce 31#28) (queued []) = .next t ∧ t.rsp = some r :=
  ⟨witness_inv_queued [], rfl, rfl, by decide, _, _, rfl, rfl⟩

theorem witness_ProduceCells_emits : ∃ t r, exec (.produce 32#28) (queued []) = .next t ∧ t.rsp = some r ∧
    t.fault = false ∧ rspN r = 32#28 := ⟨_, _, rfl, rfl, by decide, by decide⟩

theorem witness_ProduceCells_faults : ∃ t r, exec (.produce 32#28) (queued [.malformed]) = .next t ∧
    t.rsp = some r ∧ (queued [.malformed]).fault = false ∧ t.fault = true := ⟨_, _, rfl, rfl, rfl, by decide⟩

theorem witness_ProduceCells_inert : ∃ t r, exec (.produce 32#28) (broken []) = .next t ∧ t.rsp = some r ∧
    (broken []).fault = true := ⟨_, _, rfl, rfl, rfl⟩

/-- Cell 31 of 32. -/
theorem witness_AbortedCellsFree : ∃ t, exec (.produce 32#28) (queued [.malformed]) = .next t ∧
    (queued [.malformed]).fault = false ∧ t.fault = true ∧ 31 < capacity 32#28 :=
  ⟨_, rfl, rfl, by decide, by decide⟩

theorem witness_ProduceFrame_live : ∃ t, exec (.produce 32#28) (queued []) = .next t ∧
    t.fault = (queued []).fault := ⟨_, rfl, by decide⟩

theorem witness_ProduceFrame_inert : ∃ t, exec (.produce 32#28) (broken [.malformed]) = .next t ∧
    (broken [.malformed]).fault = true := ⟨_, rfl, rfl⟩

theorem witness_ProduceWholeFrames : ∃ t, exec (.produce 63#28) (queued [.blob none []]) = .next t ∧
    t.fault = false ∧ t.backlog ≠ [] := ⟨_, rfl, by decide, by decide⟩

theorem witness_PullAfterDrain : ∃ t, exec (.produce 63#28) (queued [.blob none []]) = .next t ∧
    t.src ≠ (queued [.blob none []]).src ∧ t.fault = false := ⟨_, rfl, by decide, by decide⟩

theorem witness_QueuedFrameLeaves : (queued []).fault = false ∧
    (queued []).backlog = build (cfg 0 none) [] :: [] ∧ (build (cfg 0 none) []).length ≤ capacity 32#28 ∧
    ∃ t, exec (.produce 32#28) (queued []) = .next t ∧ t.fault = false :=
  ⟨rfl, rfl, by decide, _, rfl, by decide⟩

theorem witness_FaultCauses_malformed : ∃ t, exec (.produce 0#28) (fed [.malformed]) = .next t ∧
    (fed [.malformed]).fault = false ∧ t.fault = true := ⟨_, rfl, rfl, by decide⟩

theorem witness_FaultCauses_tooLong : ∃ t, exec (.produce 0#28) (limited [.blob none [0, 1, 2]]) = .next t ∧
    (limited [.blob none [0, 1, 2]]).fault = false ∧ t.fault = true := ⟨_, rfl, rfl, by decide⟩

theorem witness_HintIgnored_pulled : (fed [.blob (some 5) [0]]).src = .blob (some 5) [0] :: [] ∧
    ∃ t, exec (.produce 100#28) (fed [.blob (some 5) [0]]) = .next t ∧ t.src = [] := ⟨rfl, _, rfl, by decide⟩

theorem witness_HintIgnored_left : (queued [.blob (some 5) [0]]).src = .blob (some 5) [0] :: [] ∧
    ∃ t, exec (.produce 31#28) (queued [.blob (some 5) [0]]) = .next t ∧ t.src ≠ [] := ⟨rfl, _, rfl, by decide⟩

/-- A PRODUCE that emits 32 of its 33 bits: both sides of N have cells. -/
theorem witness_EgressNotRead_emits : ∃ t r, exec (.produce 33#28) (queued []) = .next t ∧
    ¬ ((queued []).fault = false ∧ t.fault = true) ∧ t.rsp = some r ∧ (rspN r).toNat = 32 :=
  ⟨_, _, rfl, by decide, rfl, by decide⟩

theorem witness_EgressNotRead_faults : ∃ t, exec (.produce 32#28) (queued [.malformed]) = .next t ∧
    (queued [.malformed]).fault = false ∧ t.fault = true := ⟨_, rfl, rfl, by decide⟩

theorem witness_EgressNotRead_reset : ∃ t r, exec .reset (broken []) = .next t ∧
    ¬ ((broken []).fault = false ∧ t.fault = true) ∧ t.rsp = some r ∧ (rspN r).toNat = 0 :=
  ⟨_, _, rfl, by decide, rfl, by decide⟩

theorem witness_ResponseReports : (∃ t, exec (.produce 100#28) (fed [.malformed]) = .next t ∧ t.fault = true) ∧
    ∃ t, exec .reset (broken []) = .next t := ⟨⟨_, rfl, by decide⟩, _, rfl⟩

theorem witness_ResetIsConstruction : ∃ t, exec .reset (broken [.malformed]) = .next t := ⟨_, rfl⟩

/-- `tx_delay` equal to TXD_MAX. -/
theorem witness_ConstructLegal_legal : (∀ m, ({ cfg 4 none with txdMax := some 4 } : Config).txdMax = some m →
    ({ cfg 4 none with txdMax := some 4 } : Config).txDelay ≤ m) ∧
    1 ≤ ({ cfg 4 none with txdMax := some 4 } : Config).backlogDepth := by
  refine ⟨?_, by decide⟩
  intro m h
  cases h
  decide

theorem witness_ConstructLegal_illegal : ¬ ((∀ m, ({ cfg 5 none with txdMax := some 4 } : Config).txdMax = some m →
    ({ cfg 5 none with txdMax := some 4 } : Config).txDelay ≤ m) ∧
    1 ≤ ({ cfg 5 none with txdMax := some 4 } : Config).backlogDepth) := fun h => absurd (h.1 4 rfl) (by decide)

theorem witness_ConstructLegal_depth : ¬ ((∀ m, ({ cfg 5 none with backlogDepth := 0 } : Config).txdMax = some m →
    ({ cfg 5 none with backlogDepth := 0 } : Config).txDelay ≤ m) ∧
    1 ≤ ({ cfg 5 none with backlogDepth := 0 } : Config).backlogDepth) := fun h => absurd h.2 (by decide)

theorem witness_StepRunsDecoded : (moved (fed []) [.command 0x1FFFFFFF#32]).host = .command 0x1FFFFFFF#32 :: [] ∧
    decode 0x1FFFFFFF#32 = .ok (.produce 268435455#28) ∧ Instr.wellFormed (.produce 268435455#28) = true :=
  ⟨rfl, rfl, by decide⟩

theorem witness_StepMarksReserved :
    (moved (fed []) [.command 0x20000001#32]).host = .command 0x20000001#32 :: [] ∧
    (0x20000001#32).extractLsb' 28 4 ≠ 0x1#4 ∧ 0x20000001#32 ≠ 0x20000000#32 := by decide

theorem witness_StepHostMoves_append : (moved (fed []) [.append .malformed]).host = .append .malformed :: [] := rfl

theorem witness_StepHostMoves_supply :
    (moved (fed []) [.supply [(3, true), (1, false)]]).host = .supply [(3, true), (1, false)] :: [] := rfl

/-- A cell named twice takes the later bit, and one not named loses what the buffer before held (log 7). -/
theorem test_supply_replaces :
    seen (step (moved { fed [] with out := Egress.ofDriver [(2, true)] }
      [.supply [(3, true), (1, false), (3, false)]])) (fun t => (t.out.read 3, t.out.read 1, t.out.read 2)) =
      some (some false, some false, none) := by decide

theorem witness_StepHostMoves_idle : (fed []).host = [] := rfl

theorem witness_StepKeepsInvariant : Invariant (queued []) ∧ step (queued []) = .next (queued []) := ⟨witness_inv_queued [], rfl⟩

theorem witness_RunKeepsConfig : ∃ t, core.run 1 (moved { fed [] with refused := true } [.command resetWord]) = .next t ∧
    (moved { fed [] with refused := true } [.command resetWord]).refused = true := ⟨_, rfl, rfl⟩

theorem witness_RefusedExactly : ∃ t, step (moved (fed []) [.command 0#32]) = .next t ∧
    (moved (fed []) [.command 0#32]).refused = false ∧ t.refused = true := ⟨_, rfl, rfl, rfl⟩

theorem witness_FaultStays : (moved (broken []) [.command 0x10000064#32, .command resetWord]).fault = true ∧
    (moved (broken []) [.command 0x10000064#32, .command resetWord]).noReset 1 ∧
    ∃ t, core.run 1 (moved (broken []) [.command 0x10000064#32, .command resetWord]) = .next t :=
  ⟨rfl, by unfold State.noReset; decide, _, rfl⟩

theorem witness_inv_moved {s : State} (h : Invariant s) (moves : List HostMove) : Invariant (moved s moves) :=
  ⟨h.legal, h.depth, h.frames, h.cause, h.faultedEmpty, h.answered, h.silent, h.annCount, h.annPlace, h.buffer, h.fresh⟩

theorem witness_RunWholeFrames :
    Invariant (moved (queued []) [.append (.blob none []), .command 0x1000003F#32]) ∧
    (moved (queued []) [.append (.blob none []), .command 0x1000003F#32]).noReset 2 ∧
    ∃ t, core.run 2 (moved (queued []) [.append (.blob none []), .command 0x1000003F#32]) = .next t ∧ t.clean :=
  ⟨witness_inv_moved (witness_inv_queued []) _, by unfold State.noReset; decide, _, rfl, by
    unfold State.clean
    decide⟩

theorem witness_RunStarves : (moved (queued []) [.command 0x1000001F#32]).fault = false ∧
    (moved (queued []) [.command 0x1000001F#32]).backlog = build (cfg 0 none) [] :: [] ∧
    (∀ w, HostMove.command w ∈ (moved (queued []) [.command 0x1000001F#32]).host.take 1 →
      ∃ imm, decode w = .ok (.produce imm) ∧ capacity imm < (build (cfg 0 none) []).length) ∧
    ∃ t, core.run 1 (moved (queued []) [.command 0x1000001F#32]) = .next t := by
  refine ⟨rfl, rfl, ?_, _, rfl⟩
  intro w hw
  have : w = 0x1000001F#32 := by
    simpa [moved] using hw
  subst this
  exact ⟨31#28, rfl, by decide⟩

end Sys2Proof.Tests
end

section
/-! PROOFS. The state of the block (10_state): its values at construction, the invariant, what a PRODUCE and a run
leave unchanged, and the mark REFUSED. -/

namespace Sys2Proof.Machine

/-! The decoder and the encoder are inverse to each other (R71, R72, R74). -/

@[simp] theorem decode_encode (i : Instr) : decode (encode i) = .ok i := by
  cases i with
  | produce imm => simp [encode, decode]
  | reset => rfl

theorem encode_of_decode {w : Word} {i : Instr} (h : decode w = .ok i) : encode i = w := by
  have hw := append_fields w
  unfold decode at h
  split at h
  · rename_i hopc
    obtain rfl := Except.ok.inj h
    rwa [hopc] at hw
  · split at h
    · rename_i hopc
      split at h
      · rename_i himm
        obtain rfl := Except.ok.inj h
        rwa [hopc, himm] at hw
      · cases h
    · cases h

/-- The words the decoder accepts are the encodings (R81). -/
theorem decode_eq_ok_iff {w : Word} {i : Instr} : decode w = .ok i ↔ encode i = w :=
  ⟨encode_of_decode, fun h => h ▸ decode_encode i⟩

/-- The reserved words are those that encode no command (R75). -/
theorem encode_ne_of_decode_error {w : Word} {r : Reserved} (h : decode w = .error r) (i : Instr) :
    encode i ≠ w := by
  intro hi
  rw [decode_eq_ok_iff.mpr hi] at h
  cases h

/-! The length of a frame. -/

@[simp] theorem length_unpack (d : List Byte) : (unpack d).length = 8 * d.length := by
  induction d with
  | nil => rfl
  | cons b d ih =>
    rw [unpack_cons, List.length_append, length_unpackByte, ih, List.length_cons]
    omega

/-- The body of a frame carries at least the 16 bits of the CRC (R121). -/
theorem length_frameBody_ge (p : List Byte) : 16 ≤ (frameBody p).length := by
  have h := length_le_stuffFrom (unpack (p ++ crcBytes (crc16 p))) 0
  rw [length_unpack, List.length_append, length_crcBytes] at h
  exact Nat.le_trans (by omega) h

/-- The shortest frame is the flags and the CRC (90_conflicts C3). -/
theorem IsFrame.length_ge {cfg : Config} {f : Frame} (h : IsFrame cfg f) : cfg.txDelay + 32 ≤ f.length := by
  obtain ⟨p, -, rfl⟩ := h
  have := length_frameBody_ge p
  rw [length_build]
  omega

/-! What a PRODUCE leaves, by its form alone. -/

/-- A PRODUCE is inert on a faulted block, or it emits frames, or it faults; a block that was not faulted loses at
most the head of its source (R140, R150, R183). -/
theorem execProduce_forms {s t : State} {imm : BitVec 28} (h : execProduce imm s = .next t) :
    (s.fault = true ∧ t = respond 0 { s with ann := [] }) ∨
    (s.fault = false ∧ ∃ src, (src = s.src ∨ ∃ item, s.src = item :: src) ∧
      ((∃ fs bl, t = s.emitted fs bl src) ∨ ∃ code, t = s.faulted code (capacity imm) src)) := by
  obtain ⟨hf, rfl⟩ | ⟨hf, ds, f, gs, -, -, -, rfl⟩ | ⟨hf, -, ⟨hs, rfl⟩ | ⟨rest, hs, rfl⟩ |
    ⟨hint, p, rest, hs, -, rfl⟩ | ⟨hint, p, rest, hs, -, -, rfl⟩ | ⟨hint, p, rest, hs, -, -, rfl⟩⟩ :=
    execProduce_cases h
  · exact .inl ⟨hf, rfl⟩
  · exact .inr ⟨hf, _, .inl rfl, .inl ⟨_, _, rfl⟩⟩
  · exact .inr ⟨hf, _, .inl hs.symm, .inl ⟨_, _, rfl⟩⟩
  · exact .inr ⟨hf, _, .inr ⟨_, hs⟩, .inr ⟨_, rfl⟩⟩
  · exact .inr ⟨hf, _, .inr ⟨_, hs⟩, .inr ⟨_, rfl⟩⟩
  · exact .inr ⟨hf, _, .inr ⟨_, hs⟩, .inl ⟨_, _, rfl⟩⟩
  · exact .inr ⟨hf, _, .inr ⟨_, hs⟩, .inl ⟨_, _, rfl⟩⟩

/-- No command writes the configuration or the mark REFUSED (R22, R31). -/
theorem exec_cfg_refused {i : Instr} {s t : State} (h : exec i s = .next t) :
    t.cfg = s.cfg ∧ t.refused = s.refused := by
  cases i with
  | reset =>
    obtain rfl := Host.Outcome.next.inj h
    exact ⟨rfl, rfl⟩
  | produce imm =>
    obtain ⟨-, rfl⟩ | ⟨-, src, -, ⟨fs, bl, rfl⟩ | ⟨code, rfl⟩⟩ := execProduce_forms h <;> exact ⟨rfl, rfl⟩

/-- Settles O31, form by form of what a PRODUCE leaves. -/
theorem produceFrame : Obligations.ProduceFrame := by
  unfold Obligations.ProduceFrame
  intro imm s t h
  obtain ⟨hf, rfl⟩ | ⟨hf, src, hsrc, ⟨fs, bl, rfl⟩ | ⟨code, rfl⟩⟩ := execProduce_forms h
  · exact ⟨rfl, rfl, rfl, fun _ => ⟨rfl, rfl⟩, fun _ => ⟨hf, rfl, rfl⟩, .inl rfl⟩
  · exact ⟨rfl, rfl, rfl, fun _ => ⟨rfl, rfl⟩, by simp [hf], hsrc⟩
  · exact ⟨rfl, rfl, rfl, by simp [hf], by simp [hf], hsrc⟩

/-! Construction. -/

theorem txDelayOk_iff (c : Config) : c.txDelayOk = true ↔ ∀ m, c.txdMax = some m → c.txDelay ≤ m := by
  cases h : c.txdMax <;> simp [Config.txDelayOk, h]

theorem wellFormed_iff (c : Config) :
    c.wellFormed = true ↔ (∀ m, c.txdMax = some m → c.txDelay ≤ m) ∧ 1 ≤ c.backlogDepth := by
  rw [Config.wellFormed, Bool.and_eq_true, txDelayOk_iff, Config.depthOk, decide_eq_true_iff]

theorem construct_legal {c : Config} (h : c.wellFormed = true) :
    State.construct c = .next (State.initial c) := by
  rw [State.construct, if_pos h]

theorem construct_illegal {c : Config} (h : ¬ c.wellFormed = true) :
    State.construct c = .refused .illegalConfig := by
  rw [State.construct, if_neg h]

/-- A constructed block of a legal configuration meets the invariant (R35). -/
theorem invariant_initial {c : Config} (h : c.wellFormed = true) : Invariant (State.initial c) where
  legal := h
  depth := Nat.zero_le _
  frames := by simp
  cause := .inl ⟨rfl, rfl⟩
  faultedEmpty := fun _ => rfl
  answered := by simp
  silent := fun _ => rfl
  annCount := Nat.zero_le _
  annPlace := trivial
  buffer := wf_empty
  fresh := by simp [Egress.empty]

/-- Settles O42: the check of `State.construct` is the legality of R23. -/
theorem constructLegal : Obligations.ConstructLegal := by
  unfold Obligations.ConstructLegal
  intro c
  rw [← wellFormed_iff]
  exact ⟨fun h => ⟨construct_legal h, invariant_initial h⟩, construct_illegal⟩

/-- The defaults of R7 are legal whatever `tx_delay` is. -/
theorem built_wellFormed : Config.built.wellFormed = true := rfl

/-- Settles O43: reset is construction with a legal configuration. -/
theorem invariantAtReset : Obligations.InvariantAtReset := invariant_initial built_wellFormed

/-- Settles O41, by the fields of `State.initial` and the two templates. -/
theorem resetValues : Obligations.ResetValues := by
  unfold Obligations.ResetValues
  exact ⟨rfl, rfl, rfl, rfl, rfl, rfl, rfl⟩

/-! The invariant, one operation at a time. -/

/-- A response word made of the fields of the state reports the state (R76). -/
theorem answered_of_rspWord {t : State} {n : BitVec 28}
    (ht : t.rsp = some (rspWord t.fcode t.fault t.draining n))
    (hn : n.toNat = (t.ann.map Annotation.length).sum) :
    ∀ r, t.rsp = some r → rspFcode r = t.fcode ∧ rspFault r = t.fault ∧ rspDraining r = t.draining ∧
      (rspN r).toNat = (t.ann.map Annotation.length).sum := by
  intro r hr
  obtain rfl := Option.some.inj (ht.symm.trans hr)
  simp [hn]

/-- The regions after a fault are its own and some of those before. -/
theorem mem_spoils_abort {e : Egress} {tag cap : Nat} {r : Spoil} (h : r ∈ (e.abort tag cap).spoils) :
    r = ⟨tag, cap⟩ ∨ r ∈ e.spoils := by
  unfold Egress.abort at h
  split at h
  · exact .inr h
  · exact (List.mem_cons.mp h).imp_right fun h => (List.mem_filter.mp h).1

/-- Only a bounded limit makes a payload too long (R180). -/
theorem bounded_of_tooLong {cfg : Config} {p : List Byte} (h : tooLong cfg p = true) :
    cfg.maxPayloadBytes ≠ none := by
  intro hn
  simp [tooLong, hn] at h

section
variable {s : State} (h : Invariant s)
include h

theorem invariant_accept (rest : List HostMove) : Invariant (s.accept rest) :=
  { h with
    answered := by simp
    silent := fun _ => rfl
    annCount := Nat.zero_le _
    annPlace := trivial }

theorem invariant_refuseWord : Invariant (refuseWord s) := { h with }

theorem invariant_appendItem (item : Item) (rest : List HostMove) : Invariant (appendItem item rest s) := { h with }

theorem invariant_supplyBuffer (cells : List (Nat × Bit)) (rest : List HostMove) :
    Invariant (supplyBuffer cells rest s) :=
  { h with
    buffer := wf_ofDriver cells
    fresh := by simp [Egress.ofDriver] }

/-- An inert response (R150) reports the state and annotates nothing. -/
theorem invariant_inert : Invariant (respond 0 { s with ann := [] }) :=
  { h with
    answered := answered_of_rspWord rfl rfl
    silent := fun _ => rfl
    annCount := Nat.zero_le _
    annPlace := trivial }

/-- At most two frames emitted and at most one left queued, all of them built (R146, R147). -/
theorem invariant_emitted {fs bl : List Frame} {src : List Item} {imm : BitVec 28} (hfault : s.fault = false)
    (hcap : fs.flatten.length ≤ capacity imm) (hcount : fs.length ≤ 2) (hfs : ∀ f ∈ fs, IsFrame s.cfg f)
    (hdepth : bl.length ≤ 1) (hbl : ∀ f ∈ bl, IsFrame s.cfg f) : Invariant (s.emitted fs bl src) :=
  { h with
    depth := hdepth
    frames := hbl
    faultedEmpty := by simp [hfault]
    answered := by
      refine answered_of_rspWord (n := BitVec.ofNat 28 fs.flatten.length) (by simp [draining_eq]) ?_
      rw [toNat_ofNat_of_le_capacity hcap, emitted_ann, layout_sum]
    silent := by simp
    annCount := by simpa [length_layout] using hcount
    annPlace := contiguous_layout s.cfg fs 0 fun f hf => (hfs f hf).length_ge
    buffer := wf_write 0 fs.flatten h.buffer }

/-- Fault entry with a cause of R180. -/
theorem invariant_faulted {code : BitVec 2} {cap : Nat} {src : List Item}
    (hcode : code = codeMalformed ∨ code = codeTooLong ∧ s.cfg.maxPayloadBytes ≠ none) :
    Invariant (s.faulted code cap src) :=
  { h with
    depth := Nat.zero_le _
    frames := by simp
    cause := .inr ⟨rfl, hcode⟩
    faultedEmpty := fun _ => rfl
    answered := answered_of_rspWord rfl rfl
    silent := fun _ => rfl
    annCount := Nat.zero_le _
    annPlace := trivial
    buffer := wf_abort s.aborts cap h.buffer
    fresh := by
      intro r hr
      rcases mem_spoils_abort hr with rfl | hr
      · exact Nat.lt_succ_self _
      · exact Nat.lt_succ_of_lt (h.fresh r hr) }

/-- A PRODUCE keeps the invariant. With at most one frame queued, a drain phase that stops has emitted nothing, and
one that does not stop has emitted at most one frame before the pull. -/
theorem execProduce_keeps_invariant {t : State} {imm : BitVec 28} (ht : execProduce imm s = .next t) :
    Invariant t := by
  have hdepth := h.depth
  have hbuilt : ∀ p, tooLong s.cfg p = false → ∀ f ∈ s.backlog ++ [build s.cfg p], IsFrame s.cfg f := by
    intro p hp f hf
    rcases List.mem_append.mp hf with hf | hf
    · exact h.frames f hf
    · exact ⟨p, hp, List.mem_singleton.mp hf⟩
  obtain ⟨-, rfl⟩ | ⟨hf, ds, f, gs, hb, hcap, -, rfl⟩ | ⟨hf, hcap, ⟨-, rfl⟩ | ⟨rest, -, rfl⟩ |
    ⟨hint, p, rest, -, hp, rfl⟩ | ⟨hint, p, rest, -, hp, hfit, rfl⟩ | ⟨hint, p, rest, -, hp, -, rfl⟩⟩ :=
    execProduce_cases ht
  · exact invariant_inert h
  · have hframes := h.frames
    rw [hb] at hdepth hframes
    rw [List.length_append] at hdepth
    exact invariant_emitted h hf hcap (by omega) (fun g hg => hframes g (List.mem_append_left _ hg))
      (by omega) (fun g hg => hframes g (List.mem_append_right _ hg))
  · exact invariant_emitted h hf hcap (by omega) h.frames (Nat.zero_le _) (by simp)
  · exact invariant_faulted h (.inl rfl)
  · exact invariant_faulted h (.inr ⟨rfl, bounded_of_tooLong hp⟩)
  · exact invariant_emitted h hf hfit (by simpa using hdepth) (hbuilt p hp) (Nat.zero_le _) (by simp)
  · exact invariant_emitted h hf hcap (by omega) h.frames (Nat.le_refl _)
      (fun g hg => hbuilt p hp g (List.mem_append_right _ hg))

/-- A RESET leaves the values of construction, so only what it does not touch leans on the invariant (R170). -/
theorem execReset_keeps_invariant {t : State} (ht : execReset s = .next t) : Invariant t := by
  obtain rfl := Host.Outcome.next.inj ht
  exact
    { h with
      depth := Nat.zero_le _
      frames := by simp
      cause := .inl ⟨rfl, rfl⟩
      faultedEmpty := fun _ => rfl
      answered := answered_of_rspWord (n := 0#28) (congrArg some rspWord_zero.symm) rfl
      silent := fun _ => rfl
      annCount := Nat.zero_le _
      annPlace := trivial }

theorem exec_keeps_invariant {i : Instr} {t : State} (ht : exec i s = .next t) : Invariant t := by
  cases i with
  | produce imm => exact execProduce_keeps_invariant h ht
  | reset => exact execReset_keeps_invariant h ht

theorem step_keeps_invariant {t : State} (ht : step s = .next t) : Invariant t := by
  obtain ⟨-, rfl⟩ | ⟨w, rest, i, -, -, he⟩ | ⟨w, rest, r, -, -, rfl⟩ | ⟨item, rest, -, rfl⟩ |
    ⟨cells, rest, -, rfl⟩ := step_cases ht
  · exact h
  · exact exec_keeps_invariant (invariant_accept h rest) he
  · exact invariant_refuseWord (invariant_accept h rest)
  · exact invariant_appendItem h item rest
  · exact invariant_supplyBuffer h cells rest

end

/-- Settles O47, by the cases of a step and of PRODUCE. -/
theorem stepKeepsInvariant : Obligations.StepKeepsInvariant := by
  unfold Obligations.StepKeepsInvariant
  exact fun _ _ h ht => step_keeps_invariant h ht

/-! The configuration and the mark REFUSED, over a step and over a run. -/

theorem step_cfg {s t : State} (h : step s = .next t) : t.cfg = s.cfg := by
  obtain ⟨-, rfl⟩ | ⟨w, rest, i, -, -, he⟩ | ⟨w, rest, r, -, -, rfl⟩ | ⟨item, rest, -, rfl⟩ |
    ⟨cells, rest, -, rfl⟩ := step_cases h
  · rfl
  · exact (exec_cfg_refused he).1
  · rfl
  · rfl
  · rfl

/-- The next move is a word that encodes no command (R75). -/
def State.meetsReserved (s : State) : Prop := ∃ w rest, s.host = .command w :: rest ∧ ∀ i, encode i ≠ w

/-- The mark after a step is the mark before it or that of a reserved word met (R31, R75). -/
theorem step_refused_iff {s t : State} (h : step s = .next t) :
    t.refused = true ↔ s.refused = true ∨ s.meetsReserved := by
  obtain ⟨hh, rfl⟩ | ⟨w, rest, i, hh, hd, he⟩ | ⟨w, rest, r, hh, hd, rfl⟩ | ⟨item, rest, hh, rfl⟩ |
    ⟨cells, rest, hh, rfl⟩ := step_cases h
  · simp [State.meetsReserved, hh]
  · have hno : ¬ s.meetsReserved := by
      rintro ⟨w', rest', hh', hw'⟩
      obtain ⟨hw, -⟩ := List.cons.inj (hh.symm.trans hh')
      obtain rfl := HostMove.command.inj hw
      exact hw' i (encode_of_decode hd)
    simp [(exec_cfg_refused he).2, hno]
  · have hyes : s.meetsReserved := ⟨w, rest, hh, encode_ne_of_decode_error hd⟩
    simp [hyes]
  · simp [State.meetsReserved, hh]
  · simp [State.meetsReserved, hh]

/-- Settles O50: from a state without the mark only a reserved word sets it. -/
theorem refusedExactly : Obligations.RefusedExactly := by
  unfold Obligations.RefusedExactly
  intro s t h hs
  rw [step_refused_iff h, hs]
  simp [State.meetsReserved]

/-- A run of one more step is a step and a run from where it ends. -/
theorem run_succ_next {k : Nat} {s t : State} (h : core.run (k + 1) s = .next t) :
    ∃ u, step s = .next u ∧ core.run k u = .next t := by
  cases hs : step s with
  | next u => exact ⟨u, rfl, (run_succ hs k).symm.trans h⟩
  | fault r => cases r
  | refused r =>
    have hc : core.step s = .refused r := hs
    simp [Host.Core.run, hc] at h

/-- What relates a state to itself, and is carried back over one step, relates the two ends of every run. -/
theorem run_induction {R : State → State → Prop} (refl : ∀ s, R s s)
    (back : ∀ {s u t}, step s = .next u → R u t → R s t) {k : Nat} {s t : State}
    (h : core.run k s = .next t) : R s t := by
  induction k generalizing s with
  | zero =>
    obtain rfl := Host.Outcome.next.inj h
    exact refl s
  | succ k ih =>
    obtain ⟨u, hs, hr⟩ := run_succ_next h
    exact back hs (ih hr)

theorem run_cfg {k : Nat} {s t : State} (h : core.run k s = .next t) : t.cfg = s.cfg :=
  run_induction (R := fun s t => t.cfg = s.cfg) (fun _ => rfl) (fun hs hr => hr.trans (step_cfg hs)) h

theorem run_keeps_refused {k : Nat} {s t : State} (h : core.run k s = .next t) :
    s.refused = true → t.refused = true :=
  run_induction (R := fun s t => s.refused = true → t.refused = true) (fun _ => id)
    (fun hs hr hm => hr ((step_refused_iff hs).mpr (.inl hm))) h

/-- Settles O49, by induction over the run. -/
theorem runKeepsConfig : Obligations.RunKeepsConfig := by
  unfold Obligations.RunKeepsConfig
  exact fun _ _ _ h => ⟨run_cfg h, run_keeps_refused h⟩

end Sys2Proof.Machine
end

section
/-! PROOFS. The memory of the block (20_memory): the bits of a byte, the cells of the egress buffer, the moves of the
host, and the whole-frame invariant of a PRODUCE, a step and a run. -/

namespace Sys2Proof.Machine

/-! The order of the bits of a byte (R51). -/

theorem getElem?_unpackByte (b : Byte) {k : Nat} (h : k < 8) : (unpackByte b)[k]? = some (b.getLsbD k) := by
  interval_cases k <;> rfl

theorem getElem?_unpack (d : List Byte) {i k : Nat} (hi : i < d.length) (hk : k < 8) :
    (unpack d)[8 * i + k]? = some (d[i].getLsbD k) := by
  induction d generalizing i with
  | nil => cases hi
  | cons b d ih =>
    rw [unpack_cons]
    cases i with
    | zero =>
      rw [List.getElem?_append_left (by simp; omega), Nat.mul_zero, Nat.zero_add]
      exact getElem?_unpackByte b hk
    | succ i =>
      rw [List.getElem?_append_right (by simp; omega), length_unpackByte,
        show 8 * (i + 1) + k - 8 = 8 * i + k by omega]
      exact ih (Nat.lt_of_succ_lt_succ hi)

/-- Settles O7, by induction on the bytes. -/
theorem unpackOrder : Obligations.UnpackOrder := by
  unfold Obligations.UnpackOrder
  exact fun d => ⟨length_unpack d, fun _ _ hi hk => getElem?_unpack d hi hk⟩

/-! What a step answers to each move of the host. -/

theorem step_idle {s : State} (h : s.host = []) : step s = .next s := by
  simp only [step, h]

theorem step_command {s : State} {w : Word} {rest : List HostMove} {i : Instr}
    (h : s.host = .command w :: rest) (hd : decode w = .ok i) : step s = exec i (s.accept rest) := by
  simp only [step, h, hd]

theorem step_append {s : State} {item : Item} {rest : List HostMove} (h : s.host = .append item :: rest) :
    step s = .next (appendItem item rest s) := by
  simp only [step, h]

theorem step_supply {s : State} {cells : List (Nat × Bit)} {rest : List HostMove}
    (h : s.host = .supply cells :: rest) : step s = .next (supplyBuffer cells rest s) := by
  simp only [step, h]

/-- A supplied buffer reads as the last bit its list names for the cell, and has no other values. -/
theorem read_ofDriver (cells : List (Nat × Bit)) (k : Nat) :
    (Egress.ofDriver cells).read k = (cells.reverse.find? (fun c => c.1 == k)).map Prod.snd := by
  simp only [Egress.read, Egress.ofDriver, cellAt_setListed]
  cases cells.reverse.find? (fun c => c.1 == k) with
  | some c => rfl
  | none => rfl

/-- Settles O46, move by move. -/
theorem stepHostMoves : Obligations.StepHostMoves := by
  unfold Obligations.StepHostMoves
  exact ⟨fun _ _ _ h => step_append h,
    fun _ cells _ h => ⟨step_supply h, wf_ofDriver cells, read_ofDriver cells⟩, fun _ h => step_idle h⟩

/-- A word placed with all its bits is the word. -/
theorem tableWord_toNat (w : Word) : tableWord 32 w.toNat = w := by
  rw [tableWord, Nat.mod_eq_of_lt w.isLt, BitVec.ofNat_toNat, BitVec.setWidth_eq]

/-- Settles O44: in both clauses the first move is the word, and it decodes. -/
theorem stepRunsDecoded : Obligations.StepRunsDecoded := by
  unfold Obligations.StepRunsDecoded
  intro s w rest i hhost hd _
  have hd' : decode (tableWord 32 w.toNat) = .ok i := by rwa [tableWord_toNat]
  exact ⟨step_command hhost hd, step_command (withFetchWord_host s 32 w.toNat) hd'⟩

/-! What a PRODUCE answers, from the phase it ends in (R142, R143). -/

/-- The drain phase emits frames that fit together and goes on with those behind them (R142). -/
theorem drain_append (s : State) (cap : Nat) (ds l fs : List Frame) (h : (fs ++ ds).flatten.length ≤ cap) :
    drain s.cfg cap (ds ++ l) (emission s fs) = drain s.cfg cap l (emission s (fs ++ ds)) := by
  induction ds generalizing fs with
  | nil => simp
  | cons f ds ih =>
    have hf : fits cap (emission s fs).off f.length = true := by
      rw [fits_iff, emission_off]
      rw [List.flatten_append, List.length_append, List.flatten_cons, List.length_append] at h
      omega
    rw [List.cons_append, drain, if_pos hf, emitFrame_emission, ih _ (by simpa using h), List.append_assoc,
      List.singleton_append]

/-- A PRODUCE whose drain phase stops at a frame that does not fit (R142). -/
theorem execProduce_stops {s : State} {imm : BitVec 28} {ds gs : List Frame} {f : Frame} (h : s.fault = false)
    (hb : s.backlog = ds ++ f :: gs) (hle : ds.flatten.length ≤ capacity imm)
    (hno : capacity imm - ds.flatten.length < f.length) :
    execProduce imm s = .next (s.emitted ds (f :: gs) s.src) := by
  have hd : drain s.cfg (capacity imm) s.backlog (Emission.start s) = (f :: gs, emission s ds) := by
    rw [hb, start_eq_emission, drain_append s _ ds _ [] (by simpa using hle), List.nil_append]
    exact drain_none _ _ _ _ _ hno
  have hlive : produceLive (capacity imm) s = s.emitted ds (f :: gs) s.src := by
    rw [produceLive, hd]
    exact respond_deliver s ds (f :: gs) s.src
  simp [execProduce, h, hlive]

/-- A drained PRODUCE answers what its fetch phase leaves (R143). -/
theorem execProduce_of_fetch {s t : State} {imm : BitVec 28} (h : s.fault = false)
    (hb : s.backlog.flatten.length ≤ capacity imm)
    (ht : fetch (capacity imm) (emission s s.backlog) { s with backlog := [] } = t) :
    execProduce imm s = .next t := by
  rw [execProduce_drained h hb, ht]

/-! Which frames a PRODUCE pulls, and that they and those of the backlog leave or stay in order. -/

theorem pulledFrames_of_src_eq {s t : State} (h : t.src = s.src) : pulledFrames s t = [] := by
  simp [pulledFrames, h]

theorem pulledFrames_blob {s t : State} {hint : Option Nat} {p : List Byte}
    (h : s.src = .blob hint p :: t.src) : pulledFrames s t = [build s.cfg p] := by
  simp [pulledFrames, h, itemFrame]

/-- What a live PRODUCE answers, the same for every egress buffer: it emits the frames `fs` and keeps `bl`, which
are the backlog and the frame it pulled, or it faults. -/
theorem execProduce_answers (imm : BitVec 28) {s : State} (h : s.fault = false) :
    (∃ fs bl src, fs.flatten.length ≤ capacity imm ∧
      fs ++ bl = s.backlog ++ pulledFrames s (s.emitted fs bl src) ∧
      ∀ o, execProduce imm { s with out := o } = .next (State.emitted { s with out := o } fs bl src)) ∨
    ∃ code src, ∀ o, execProduce imm { s with out := o } =
      .next (State.faulted { s with out := o } code (capacity imm) src) := by
  obtain ⟨t, ht⟩ := execProduce_next imm s
  obtain ⟨hf, -⟩ | ⟨-, ds, f, gs, hb, hle, hno, -⟩ | ⟨-, hle, ⟨hs, -⟩ | ⟨rest, hs, -⟩ | ⟨hint, p, rest, hs, hp, -⟩ |
    ⟨hint, p, rest, hs, hp, hfit, -⟩ | ⟨hint, p, rest, hs, hp, hno, -⟩⟩ := execProduce_cases ht
  · simp [h] at hf
  · refine .inl ⟨ds, f :: gs, s.src, hle, ?_, fun o => execProduce_stops h hb hle hno⟩
    rw [pulledFrames_of_src_eq (emitted_src s ds (f :: gs) s.src), List.append_nil, hb]
  · refine .inl ⟨s.backlog, [], [], hle, ?_, fun o => execProduce_of_fetch h hle (fetch_none _ _ hs)⟩
    rw [pulledFrames_of_src_eq hs.symm]
  · exact .inr ⟨_, rest, fun o => execProduce_of_fetch h hle (fetch_malformed _ _ hs)⟩
  · exact .inr ⟨_, rest, fun o => execProduce_of_fetch h hle (fetch_tooLong _ _ hs hp)⟩
  · have hfit' : (build s.cfg p).length ≤ capacity imm - s.backlog.flatten.length := by
      rw [length_flatten_concat] at hfit
      omega
    refine .inl ⟨s.backlog ++ [build s.cfg p], [], rest, hfit, ?_,
      fun o => execProduce_of_fetch h hle (fetch_emits hs hp hfit')⟩
    rw [pulledFrames_blob hs, List.append_nil]
  · have hno' : capacity imm - s.backlog.flatten.length < (build s.cfg p).length := by
      rw [length_flatten_concat] at hno
      omega
    refine .inl ⟨s.backlog, [build s.cfg p], rest, hle, ?_,
      fun o => execProduce_of_fetch h hle (fetch_queues hs hp hno')⟩
    rw [pulledFrames_blob hs]

/-- The three answers of a PRODUCE: inert, frames in order, or fault entry. -/
theorem execProduce_answer_cases {s t : State} {imm : BitVec 28} (h : execProduce imm s = .next t) :
    (s.fault = true ∧ t = respond 0 { s with ann := [] }) ∨
    (s.fault = false ∧ ∃ fs bl src, fs.flatten.length ≤ capacity imm ∧
      fs ++ bl = s.backlog ++ pulledFrames s t ∧ t = s.emitted fs bl src) ∨
    (s.fault = false ∧ ∃ code src, t = s.faulted code (capacity imm) src) := by
  obtain hf | hf := Bool.eq_false_or_eq_true s.fault
  · exact .inl ⟨hf, Host.Outcome.next.inj (h.symm.trans (execProduce_inert imm hf))⟩
  · obtain ⟨fs, bl, src, hle, hfs, ho⟩ | ⟨code, src, ho⟩ := execProduce_answers imm hf
    · obtain rfl := Host.Outcome.next.inj (h.symm.trans (ho s.out))
      exact .inr (.inl ⟨hf, fs, bl, src, hle, hfs, rfl⟩)
    · exact .inr (.inr ⟨hf, code, src, Host.Outcome.next.inj (h.symm.trans (ho s.out))⟩)

/-- A PRODUCE that ends without a fault emitted frames that fit. -/
theorem execProduce_emitted {s t : State} {imm : BitVec 28} (h : execProduce imm s = .next t)
    (hf : t.fault = false) :
    ∃ fs bl src, fs.flatten.length ≤ capacity imm ∧ fs ++ bl = s.backlog ++ pulledFrames s t ∧
      t = s.emitted fs bl src := by
  obtain ⟨hs, rfl⟩ | ⟨-, he⟩ | ⟨-, code, src, rfl⟩ := execProduce_answer_cases h
  · simp [hs] at hf
  · exact he
  · simp at hf

/-- Settles O32: the frames are those emitted. -/
theorem produceWholeFrames : Obligations.ProduceWholeFrames := by
  unfold Obligations.ProduceWholeFrames
  intro imm s t h hf
  obtain ⟨fs, bl, src, hle, hfs, rfl⟩ := execProduce_emitted h hf
  exact ⟨fs, hfs, returned_emitted hle, rfl⟩

/-! The cells a PRODUCE writes (R56). -/

theorem read_write_zero (e : Egress) {k : Nat} {v : Bits} (h : k < v.length) : (e.write 0 v).read k = some v[k] := by
  simpa using read_write_inside e 0 k v h

/-- The count N of the response to a PRODUCE that emitted the frames `fs` (R146). -/
theorem rspN_of_emitted {s : State} {fs bl : List Frame} {src : List Item} {imm : BitVec 28} {r : Word}
    (h : fs.flatten.length ≤ capacity imm) (hr : (s.emitted fs bl src).rsp = some r) :
    (rspN r).toNat = fs.flatten.length := by
  obtain rfl := Option.some.inj hr
  rw [rspN_rspWord, toNat_ofNat_of_le_capacity h]

/-- Settles O29, by the three answers of a PRODUCE. -/
theorem produceCells : Obligations.ProduceCells := by
  unfold Obligations.ProduceCells
  intro imm s t r h hr
  obtain ⟨hs, rfl⟩ | ⟨hs, fs, bl, src, hle, -, rfl⟩ | ⟨hs, code, src, rfl⟩ := execProduce_answer_cases h
  · simp [hs]
  · rw [rspN_of_emitted hle hr, returned_emitted hle]
    refine ⟨fun _ => ⟨hle, rfl, fun k hk => read_write_zero s.out hk, fun k hk => ?_⟩, by simp [hs], by simp [hs]⟩
    exact read_write_outside s.out 0 k _ (.inr (by omega))
  · exact ⟨by simp, fun _ _ k hk => read_abort_outside s.out s.aborts _ k hk, by simp [hs]⟩

/-! The block does not read the egress buffer (R50). -/

/-- Two buffers read the same below `n` after the same bits are written to them. -/
theorem read_write_agree (e o : Egress) (v : Bits) {k : Nat} (h : k < v.length) :
    (o.write 0 v).read k = (e.write 0 v).read k := by
  rw [read_write_zero o h, read_write_zero e h]

theorem read_abort_agree (e o : Egress) (tag cap : Nat) {k : Nat} (h : k < cap) :
    (o.abort tag cap).read k = (e.abort tag cap).read k := by
  rw [read_abort_inside o tag cap k h, read_abort_inside e tag cap k h]

/-- Settles O37: the answer to another buffer is the same answer, on that buffer. -/
theorem egressNotRead : Obligations.EgressNotRead := by
  unfold Obligations.EgressNotRead
  intro i s t o h
  cases i with
  | reset =>
    obtain rfl := Host.Outcome.next.inj h
    refine ⟨o, rfl, rfl, fun _ r hr => ?_, by simp⟩
    obtain rfl := Option.some.inj hr
    exact ⟨fun k hk => absurd hk (Nat.not_lt_zero k), fun _ _ => rfl⟩
  | produce imm =>
    obtain hf | hf := Bool.eq_false_or_eq_true s.fault
    · obtain rfl := Host.Outcome.next.inj (h.symm.trans (execProduce_inert imm hf))
      refine ⟨o, execProduce_inert (s := { s with out := o }) imm hf, ?_, fun _ r hr => ?_, by simp [hf]⟩
      · simp [State.returned, respond, Egress.readRange]
      · obtain rfl := Option.some.inj hr
        simp
    · obtain ⟨fs, bl, src, hle, -, ho⟩ | ⟨code, src, ho⟩ := execProduce_answers imm hf
      · obtain rfl := Host.Outcome.next.inj (h.symm.trans (ho s.out))
        refine ⟨o.write 0 fs.flatten, ho o, ?_, fun _ r hr => ?_, by simp [hf]⟩
        · exact (returned_emitted (s := { s with out := o }) hle).trans (returned_emitted hle).symm
        · rw [rspN_of_emitted hle hr]
          exact ⟨fun k hk => read_write_agree s.out o _ hk,
            fun k hk => read_write_outside o 0 k _ (.inr (by omega))⟩
      · obtain rfl := Host.Outcome.next.inj (h.symm.trans (ho s.out))
        refine ⟨o.abort s.aborts (capacity imm), ho o, ?_, by simp [hf], fun _ _ imm' hi => ?_⟩
        · exact (returned_faulted { s with out := o } code _ src).trans (returned_faulted s code _ src).symm
        · obtain rfl := Instr.produce.inj hi
          exact ⟨fun k hk => read_abort_agree s.out o _ _ hk, fun k hk => read_abort_outside o _ _ k hk⟩

/-! Runs without a RESET. -/

theorem noReset_succ_iff {s : State} {k : Nat} :
    s.noReset (k + 1) ↔ s.host.head? ≠ some (.command resetWord) ∧ HostMove.command resetWord ∉ s.host.tail.take k := by
  cases hh : s.host <;> simp [State.noReset, hh, eq_comm]

/-- After a step the moves to come are without a RESET for one step less. -/
theorem noReset_of_step {s u : State} {k : Nat} (h : s.noReset (k + 1)) (hs : step s = .next u) : u.noReset k := by
  rw [State.noReset, step_host hs]
  exact (noReset_succ_iff.mp h).2

/-- A command that is not a RESET is a PRODUCE. -/
theorem produce_of_noReset {s : State} {k : Nat} {w : Word} {rest : List HostMove} {i : Instr}
    (h : s.noReset (k + 1)) (hh : s.host = .command w :: rest) (hd : decode w = .ok i) :
    ∃ imm, i = .produce imm := by
  cases i with
  | produce imm => exact ⟨imm, rfl⟩
  | reset =>
    have hw : resetWord = w := encode_of_decode hd
    exact absurd (by rw [hh, hw]; rfl) (noReset_succ_iff.mp h).1

/-- A fault stays until a RESET (R185). -/
theorem step_keeps_fault {s u : State} {k : Nat} (hs : step s = .next u) (hno : s.noReset (k + 1))
    (hf : s.fault = true) : u.fault = true := by
  obtain ⟨-, rfl⟩ | ⟨w, rest, i, hh, hd, he⟩ | ⟨w, rest, r, -, -, rfl⟩ | ⟨item, rest, -, rfl⟩ |
    ⟨cells, rest, -, rfl⟩ := step_cases hs
  · exact hf
  · obtain ⟨imm, rfl⟩ := produce_of_noReset hno hh hd
    obtain rfl := Host.Outcome.next.inj (he.symm.trans (execProduce_inert imm hf))
    exact hf
  · exact hf
  · exact hf
  · exact hf

theorem run_keeps_fault {s t : State} {k : Nat} (hr : core.run k s = .next t) (hno : s.noReset k)
    (hf : s.fault = true) : t.fault = true := by
  induction k generalizing s with
  | zero =>
    obtain rfl := Host.Outcome.next.inj hr
    exact hf
  | succ k ih =>
    obtain ⟨u, hs, hr⟩ := run_succ_next hr
    exact ih hr (noReset_of_step hno hs) (step_keeps_fault hs hno hf)

theorem run_keeps_invariant {k : Nat} {s t : State} (h : core.run k s = .next t) : Invariant s → Invariant t :=
  run_induction (R := fun s t => Invariant s → Invariant t) (fun _ => id)
    (fun hs hr hi => hr (step_keeps_invariant hi hs)) h

/-! The whole-frame invariant (R61). -/

/-- Only a command returns bits. -/
theorem stepOutput_command {s t : State} {w : Word} {rest : List HostMove} (h : s.host = .command w :: rest) :
    stepOutput s t = t.returned := by
  simp only [stepOutput, h]

/-- Only a command pulls payloads. -/
theorem stepBuilt_command {s t : State} {w : Word} {rest : List HostMove} (h : s.host = .command w :: rest) :
    stepBuilt s t = pulledFrames s t := by
  simp only [stepBuilt, h]

/-- One step without a RESET that ends without a fault: the frames queued and the frame built are the output and the
frames still queued. -/
theorem step_wholeFrames {s u : State} {k : Nat} (hs : step s = .next u) (hno : s.noReset (k + 1))
    (hf : u.fault = false) :
    s.backlog.flatten ++ (stepBuilt s u).flatten = stepOutput s u ++ u.backlog.flatten := by
  obtain ⟨hh, rfl⟩ | ⟨w, rest, i, hh, hd, he⟩ | ⟨w, rest, r, hh, -, rfl⟩ | ⟨item, rest, hh, rfl⟩ |
    ⟨cells, rest, hh, rfl⟩ := step_cases hs
  · simp [stepBuilt, stepOutput, hh]
  · obtain ⟨imm, rfl⟩ := produce_of_noReset hno hh hd
    obtain ⟨fs, hfs, hret, -⟩ := produceWholeFrames imm _ u he hf
    rw [stepBuilt_command hh, stepOutput_command hh, hret, ← List.flatten_append, ← List.flatten_append]
    exact congrArg List.flatten hfs.symm
  · have hout : (refuseWord (s.accept rest)).returned = [] := rfl
    rw [stepBuilt_command hh, stepOutput_command hh, pulledFrames_of_src_eq (by simp), hout]
    simp
  · simp [stepBuilt, stepOutput, hh]
  · simp [stepBuilt, stepOutput, hh]

/-- The same over a run: since a fault stays until a RESET, no step of the run ends with one. -/
theorem run_wholeFrames {k : Nat} {s t : State} (hr : core.run k s = .next t) (hno : s.noReset k)
    (hf : t.fault = false) :
    s.backlog.flatten ++ (runBuilt k s).flatten = runOutput k s ++ t.backlog.flatten := by
  induction k generalizing s with
  | zero =>
    obtain rfl := Host.Outcome.next.inj hr
    simp [runBuilt, runOutput]
  | succ k ih =>
    obtain ⟨u, hs, hr⟩ := run_succ_next hr
    have hnou := noReset_of_step hno hs
    have hfu : u.fault = false := by
      refine Bool.eq_false_iff.mpr fun h => ?_
      rw [run_keeps_fault hr hnou h] at hf
      cases hf
    rw [runBuilt_succ hs, runOutput_succ hs]
    calc s.backlog.flatten ++ (stepBuilt s u ++ runBuilt k u).flatten
        = s.backlog.flatten ++ (stepBuilt s u).flatten ++ (runBuilt k u).flatten := by
          rw [List.flatten_append, List.append_assoc]
      _ = stepOutput s u ++ (u.backlog.flatten ++ (runBuilt k u).flatten) := by
          rw [step_wholeFrames hs hno hfu, List.append_assoc]
      _ = stepOutput s u ++ runOutput k u ++ t.backlog.flatten := by rw [ih hr hnou, List.append_assoc]

/-- Settles O52, by induction over the run; the depth is the invariant's. -/
theorem runWholeFrames : Obligations.RunWholeFrames := by
  unfold Obligations.RunWholeFrames
  intro k s t hi hno hr ⟨hf, _⟩
  exact ⟨run_wholeFrames hr hno hf, (run_keeps_invariant hr hi).depth⟩

end Sys2Proof.Machine
end

section
/-! PROOFS. The encoding (30_encoding): the words of the commands, the assembler, the length hint of an item, the
response word and the reserved words. -/

namespace Sys2Proof.Machine

/-! Words and commands (R71 to R75, R79, R81). -/

/-- The type of the operand leaves no ill-formed instruction (R73). -/
theorem instr_wellFormed (i : Instr) : i.wellFormed = true := by
  cases i with
  | produce imm => exact decide_eq_true (Nat.le_of_lt_succ imm.isLt)
  | reset => rfl

/-- Settles O1: decoder and encoder are inverse to each other, and every instruction is well formed. -/
theorem decodeExactlyEncodings : Obligations.DecodeExactlyEncodings := by
  unfold Obligations.DecodeExactlyEncodings
  intro w i
  rw [decode_eq_ok_iff]
  exact ⟨fun h => ⟨instr_wellFormed i, h⟩, fun ⟨_, h⟩ => h⟩

/-- Settles O2: the decoder computes each of the eight. -/
theorem sampleWordsDecode : Obligations.SampleWordsDecode := by
  unfold Obligations.SampleWordsDecode
  exact ⟨rfl, rfl, rfl, rfl, rfl, rfl, rfl, rfl⟩

/-- The word `0x10000000 | cap` of R79 is the encoding of R71: a capacity in range is its own low 28 bits. -/
theorem encode_produce_ofNat {cap : Nat} (h : cap ≤ capMax) :
    encode (.produce (BitVec.ofNat 28 cap)) = 0x10000000#32 ||| BitVec.ofNat 32 cap := by
  have hcap : cap < 2 ^ 28 := Nat.lt_succ_of_le h
  apply BitVec.eq_of_toNat_eq
  calc (0x1#4 ++ BitVec.ofNat 28 cap).toNat
      = 0x10000000 ||| cap % 2 ^ 28 := by rw [BitVec.toNat_append, BitVec.toNat_ofNat]; rfl
    _ = 0x10000000 ||| cap % 2 ^ 32 := by rw [Nat.mod_eq_of_lt hcap, Nat.mod_eq_of_lt (by omega)]
    _ = (0x10000000#32 ||| BitVec.ofNat 32 cap).toNat := by rw [BitVec.toNat_or, BitVec.toNat_ofNat]; rfl

theorem capacity_ofNat {cap : Nat} (h : cap ≤ capMax) : capacity (BitVec.ofNat 28 cap) = cap := by
  rw [capacity_eq, BitVec.toNat_ofNat]
  exact Nat.mod_eq_of_lt (Nat.lt_succ_of_le h)

theorem assemble_produce {cap : Nat} (h : cap ≤ capMax) :
    assemble (.produce cap) = some (0x10000000#32 ||| BitVec.ofNat 32 cap) := if_pos h

theorem assemble_produce_out_of_range {cap : Nat} (h : capMax < cap) : assemble (.produce cap) = none :=
  if_neg (Nat.not_le.mpr h)

/-- Settles O3: the assembled word is the encoding of the PRODUCE of that capacity. -/
theorem assembledWords : Obligations.AssembledWords := by
  unfold Obligations.AssembledWords
  refine ⟨fun cap h => ⟨assemble_produce h, BitVec.ofNat 28 cap, ?_, capacity_ofNat h⟩,
    fun cap h => assemble_produce_out_of_range h, rfl, decode_encode .reset⟩
  exact decode_eq_ok_iff.mpr (encode_produce_ofNat h)

/-! Reserved words (R75). -/

/-- A word that has neither the opcode of a PRODUCE nor is the RESET word is reserved. -/
theorem decode_error {w : Word} (hp : opcField w ≠ 0x1#4) (hr : w ≠ resetWord) : ∃ r, decode w = .error r := by
  cases hd : decode w with
  | error r => exact ⟨r, rfl⟩
  | ok i =>
    have hw := encode_of_decode hd
    cases i with
    | produce imm => exact absurd (hw ▸ opcField_append 0x1#4 imm) hp
    | reset => exact absurd hw.symm hr

theorem step_reserved {s : State} {w : Word} {rest : List HostMove} {r : Reserved}
    (h : s.host = .command w :: rest) (hd : decode w = .error r) : step s = .next (refuseWord (s.accept rest)) := by
  simp only [step, h, hd]

/-- Settles O45: the word does not decode, so the step only marks it. -/
theorem stepMarksReserved : Obligations.StepMarksReserved := by
  unfold Obligations.StepMarksReserved
  intro s w rest hhost hp hr
  obtain ⟨r, hd⟩ := decode_error hp hr
  exact step_reserved hhost hd

/-! The length hint (R78). -/

/-- The fetch phase pulls a blob without reading its hint. -/
theorem fetch_hint_irrelevant {s : State} {h : Option Nat} {p : List Byte} {rest : List Item} (h' : Option Nat)
    (cap : Nat) (e : Emission) (hs : s.src = .blob h p :: rest) :
    fetch cap e { s with src := .blob h' p :: rest } = fetch cap e s := by
  simp only [fetch, sourcePull, hs]

/-- The fetch phase takes the first item off the source, whatever the item (R143). -/
theorem fetch_src {s : State} {item : Item} {rest : List Item} (cap : Nat) (e : Emission)
    (h : s.src = item :: rest) : (fetch cap e s).src = rest := by
  cases item with
  | malformed => simp [fetch, sourcePull, h]
  | blob hint p =>
    simp only [fetch, sourcePull, h, emitOrQueue]
    split_ifs <;> rfl

/-- A command leaves the first blob where it is or pulls it, whatever its hint: RESET and a PRODUCE that is inert or
stops in its drain phase never look at the source, and the fetch phase does not look at the hint. -/
theorem exec_first_blob {i : Instr} {s t : State} {h : Option Nat} {p : List Byte} {rest : List Item}
    (h' : Option Nat) (hs : s.src = .blob h p :: rest) (ht : exec i s = .next t) :
    (t.src = .blob h p :: rest ∧
      exec i { s with src := .blob h' p :: rest } = .next { t with src := .blob h' p :: rest }) ∨
    (t.src = rest ∧ exec i { s with src := .blob h' p :: rest } = .next t) := by
  cases i with
  | reset =>
    obtain rfl := Host.Outcome.next.inj ht
    exact .inl ⟨hs, rfl⟩
  | produce imm =>
    obtain ⟨hf, rfl⟩ | ⟨hf, ds, f, gs, hb, hle, hno, rfl⟩ | ⟨hf, hle, -⟩ := execProduce_cases ht
    · exact .inl ⟨hs, execProduce_inert imm hf⟩
    · exact .inl ⟨hs, execProduce_stops hf hb hle hno⟩
    · obtain rfl := Host.Outcome.next.inj ((execProduce_drained hf hle).symm.trans ht)
      have hfetch := fetch_hint_irrelevant (s := { s with backlog := [] }) h' (capacity imm) (emission s s.backlog) hs
      exact .inr ⟨fetch_src _ _ hs, execProduce_of_fetch hf hle hfetch⟩

/-- Settles O36: the hint is put back where the blob was left, and went with the blob where it was pulled. -/
theorem hintIgnored : Obligations.HintIgnored := by
  unfold Obligations.HintIgnored
  intro i s t h h' p rest hs ht
  obtain ⟨hsrc, he⟩ | ⟨hsrc, he⟩ := exec_first_blob h' hs ht
  · simp [he, hsrc]
  · subst hsrc
    simp [he]

/-! The response word (R76). -/

/-- A response with N = 0 returns no bits. -/
theorem returned_of_rspN_zero {t : State} {r : Word} (h : t.rsp = some r) (hn : rspN r = 0#28) : t.returned = [] := by
  simp [State.returned, h, hn, Egress.readRange]

/-- `t` answers the command `i` with a word made of its own fields and the count `n`, and `n` is what R76 and R146 say
of N. -/
structure RespondsWith (i : Instr) (t : State) (n : BitVec 28) : Prop where
  word : t.rsp = some (rspWord t.fcode t.fault t.draining n)
  bits : n.toNat = t.returned.length
  frames : n.toNat = (t.ann.map Annotation.length).sum
  onFault : t.fault = true → n = 0#28
  onReset : i = .reset → n = 0#28
  bound : ∀ imm, i = .produce imm → n.toNat ≤ capacity imm

/-- A response with N = 0 and no annotations. -/
theorem respondsWith_zero {i : Instr} {t : State} (hr : t.rsp = some (rspWord t.fcode t.fault t.draining 0#28))
    (ha : t.ann = []) : RespondsWith i t 0#28 where
  word := hr
  bits := by rw [returned_of_rspN_zero hr (rspN_rspWord _ _ _ _)]; rfl
  frames := by rw [ha]; rfl
  onFault := fun _ => rfl
  onReset := fun _ => rfl
  bound := fun _ _ => Nat.zero_le _

/-- A PRODUCE that emits the frames `fs` counts their bits (R146). -/
theorem respondsWith_emitted {s : State} {fs bl : List Frame} {src : List Item} {imm : BitVec 28}
    (hf : s.fault = false) (hle : fs.flatten.length ≤ capacity imm) :
    RespondsWith (.produce imm) (s.emitted fs bl src) (BitVec.ofNat 28 fs.flatten.length) where
  word := by rw [emitted_rsp, draining_eq]; rfl
  bits := by rw [toNat_ofNat_of_le_capacity hle, returned_emitted hle]
  frames := by rw [toNat_ofNat_of_le_capacity hle, emitted_ann, layout_sum]
  onFault := by simp [hf]
  onReset := by simp
  bound := by
    rintro _ ⟨⟩
    rwa [toNat_ofNat_of_le_capacity hle]

theorem exec_respondsWith {i : Instr} {s t : State} (h : exec i s = .next t) : ∃ n, RespondsWith i t n := by
  cases i with
  | reset =>
    obtain rfl := Host.Outcome.next.inj h
    exact ⟨_, respondsWith_zero (congrArg some rspWord_zero.symm) rfl⟩
  | produce imm =>
    obtain ⟨-, rfl⟩ | ⟨hf, fs, bl, src, hle, -, rfl⟩ | ⟨-, code, src, rfl⟩ := execProduce_answer_cases h
    · exact ⟨_, respondsWith_zero rfl rfl⟩
    · exact ⟨_, respondsWith_emitted hf hle⟩
    · exact ⟨_, respondsWith_zero rfl rfl⟩

/-- Settles O38: the word is made of the fields it reports. -/
theorem responseReports : Obligations.ResponseReports := by
  unfold Obligations.ResponseReports
  intro i s t h
  obtain ⟨n, hn⟩ := exec_respondsWith h
  refine ⟨_, hn.word, ?_⟩
  rw [rspFcode_rspWord, rspFault_rspWord, rspDraining_rspWord, rspN_rspWord]
  exact ⟨rfl, rfl, draining_eq t, hn.bits, hn.frames, hn.onFault, hn.onReset, hn.bound⟩

end Sys2Proof.Machine
end

section
/-! PROOFS. The CRC (40_crc): the register is linear over exclusive-or (R91), and a payload followed by its own CRC
leaves the residue (R94). -/

namespace Sys2Proof.Machine

/-! One shift and one byte are linear (R91). -/

theorem crcShift_of_even {r : BitVec 16} (h : r.getLsbD 0 = false) : crcShift r = r >>> 1 :=
  if_neg (Bool.eq_false_iff.mp h)

theorem crcShift_of_odd {r : BitVec 16} (h : r.getLsbD 0 = true) : crcShift r = (r >>> 1) ^^^ crcPoly := if_pos h

/-- Two odd registers add the polynomial twice, which cancels. -/
theorem crcShift_xor (r q : BitVec 16) : crcShift (r ^^^ q) = crcShift r ^^^ crcShift q := by
  have hx : (r ^^^ q).getLsbD 0 = (r.getLsbD 0 ^^ q.getLsbD 0) := BitVec.getLsbD_xor
  cases hr : r.getLsbD 0 <;> cases hq : q.getLsbD 0 <;> rw [hr, hq] at hx
  case false.false =>
    rw [crcShift_of_even hx, crcShift_of_even hr, crcShift_of_even hq, BitVec.ushiftRight_xor_distrib]
  case false.true =>
    rw [crcShift_of_odd hx, crcShift_of_even hr, crcShift_of_odd hq, BitVec.ushiftRight_xor_distrib, BitVec.xor_assoc]
  case true.false =>
    rw [crcShift_of_odd hx, crcShift_of_odd hr, crcShift_of_even hq, BitVec.ushiftRight_xor_distrib]
    ac_rfl
  case true.true =>
    calc crcShift (r ^^^ q)
        = (r >>> 1 ^^^ q >>> 1) ^^^ (crcPoly ^^^ crcPoly) := by
          rw [crcShift_of_even hx, BitVec.ushiftRight_xor_distrib, BitVec.xor_self, BitVec.xor_zero]
      _ = (r >>> 1 ^^^ crcPoly) ^^^ (q >>> 1 ^^^ crcPoly) := by ac_rfl
      _ = crcShift r ^^^ crcShift q := by rw [crcShift_of_odd hr, crcShift_of_odd hq]

theorem crcShifts_xor (n : Nat) (r q : BitVec 16) : crcShifts n (r ^^^ q) = crcShifts n r ^^^ crcShifts n q := by
  induction n generalizing r q with
  | zero => rfl
  | succ n ih => rw [crcShifts, crcShift_xor, ih, crcShifts, crcShifts]

/-- Settles O5: the byte is XORed into the register and the shifts are linear. -/
theorem crcCarryless : Obligations.CrcCarryless := by
  unfold Obligations.CrcCarryless
  intro r q a b
  calc crcByte (r ^^^ q) (a ^^^ b)
      = crcShifts 8 ((r ^^^ a.setWidth 16) ^^^ (q ^^^ b.setWidth 16)) := by
        rw [crcByte, BitVec.setWidth_xor]
        ac_rfl
    _ = crcByte r a ^^^ crcByte q b := crcShifts_xor 8 _ _

/-! The residue (R94). -/

/-- As long as zeros are shifted out, the polynomial does not enter. -/
theorem crcShifts_of_low_zero {n : Nat} {r : BitVec 16} (h : ∀ i < n, r.getLsbD i = false) :
    crcShifts n r = r >>> n := by
  induction n generalizing r with
  | zero => exact (BitVec.ushiftRight_zero r).symm
  | succ n ih =>
    have hshift : ∀ i < n, (r >>> 1).getLsbD i = false := fun i hi => by
      rw [BitVec.getLsbD_ushiftRight]
      exact h (1 + i) (by omega)
    rw [crcShifts, crcShift_of_even (h 0 n.succ_pos), ih hshift, ← BitVec.shiftRight_add, Nat.add_comm]

/-- The constant `0x00FF` is a low byte of ones. -/
theorem getElem_lowOnes : ∀ i (hi : i < 16), (0x00FF#16)[i] = decide (i < 8) := by decide

/-- The low CRC byte turns the low byte of the register into ones and leaves the high byte. -/
theorem xor_low_crcByte (r : BitVec 16) :
    r ^^^ ((~~~ r).extractLsb' 0 8).setWidth 16 = (r >>> 8 <<< 8) ^^^ 0x00FF#16 := by
  ext i hi
  rw [BitVec.getElem_xor, BitVec.getElem_xor, getElem_lowOnes]
  by_cases h : i < 8
  · simp [h, hi]
  · simp [h, Nat.add_sub_cancel' (Nat.not_lt.mp h), BitVec.getLsbD_eq_getElem hi]

/-- The high CRC byte turns the high byte of the register, once it has moved down, into ones. -/
theorem xor_high_crcByte (r : BitVec 16) :
    (r >>> 8) ^^^ ((~~~ r).extractLsb' 8 8).setWidth 16 = 0x00FF#16 := by
  ext i hi
  rw [BitVec.getElem_xor, getElem_lowOnes]
  by_cases h : i < 8
  · have : 8 + i < 16 := by omega
    simp [h, this]
  · simpa [h] using BitVec.getLsbD_of_ge r (8 + i) (by omega)

theorem crcShifts_shiftLeft (n : Nat) (x : BitVec 16) : crcShifts n (x <<< n) = x <<< n >>> n :=
  crcShifts_of_low_zero fun i hi => by simp [hi]

/-- The high byte of the register is shifted down as it stands. -/
theorem crcShifts_high_byte (r : BitVec 16) : crcShifts 8 (r >>> 8 <<< 8) = r >>> 8 := by
  rw [crcShifts_shiftLeft]
  ext i hi
  simpa using BitVec.lt_of_getLsbD

/-- What is left of the register once its own bits have cancelled. -/
theorem crcShifts_lowOnes : crcShifts 8 (0x00FF#16 ^^^ crcShifts 8 0x00FF#16) = 0xF0B8#16 := by decide +kernel

/-- The CRC bytes of a register take it to the residue: its high byte, moved down by the first of them, cancels in the
second, and only ones are left of it. -/
theorem foldl_crcBytes_complement (r : BitVec 16) : (crcBytes (~~~ r)).foldl crcByte r = 0xF0B8#16 := by
  have hlow : crcByte r ((~~~ r).extractLsb' 0 8) = (r >>> 8) ^^^ crcShifts 8 (0x00FF#16) := by
    rw [crcByte, xor_low_crcByte, crcShifts_xor, crcShifts_high_byte]
  rw [crcBytes, List.foldl_cons, List.foldl_cons, List.foldl_nil, hlow, crcByte, BitVec.xor_assoc,
    BitVec.xor_comm (crcShifts _ _), ← BitVec.xor_assoc, xor_high_crcByte, crcShifts_lowOnes]

/-- Settles O4: the CRC is the complement of the register, so its bytes leave the residue. -/
theorem crcResidue : Obligations.CrcResidue := by
  unfold Obligations.CrcResidue
  intro p
  rw [crc16, crcRegister_append, crc16, foldl_crcBytes_complement]
  rfl

/-- Settles O6: the CRC of each of the six sequences is computed. -/
theorem crcVectors : Obligations.CrcVectors := by
  unfold Obligations.CrcVectors
  decide +kernel

end Sys2Proof.Machine
end

section
/-! PROOFS. Bit stuffing (42_stuff): the laws of STUFF (R113), a run of ones that ends the input (R112) and a second
pass (R114). An induction over STUFF from the counter `c` on keeps the last `c` scanned bits, which are ones, in front:
`ones c ++ stuffFrom c b` is then a suffix of the output, and `ones c ++ b` a suffix of the input. -/

namespace Sys2Proof.Machine

theorem stuffRun_pos : 0 < stuffRun := Nat.succ_pos 4

@[simp] theorem length_ones (n : Nat) : (ones n).length = n := List.length_replicate

@[simp] theorem ones_zero : ones 0 = [] := rfl

theorem ones_succ (n : Nat) : ones (n + 1) = true :: ones n := rfl

/-- A one after `n` ones makes `n + 1` of them. -/
theorem ones_append_true (n : Nat) (b : Bits) : ones n ++ true :: b = ones (n + 1) ++ b := by
  simp [ones, List.replicate_succ']

/-! Where STUFF splits (R113 law 5, R112). -/

/-- STUFF of two pieces: the second is stuffed from the counter that the first leaves. -/
theorem stuffFrom_append (c : Nat) (x y : Bits) :
    stuffFrom c (x ++ y) = stuffFrom c x ++ stuffFrom (counterFrom c x) y := by
  fun_induction stuffFrom c x with
  | case1 c => simp [counterFrom]
  | case2 c x h ih => simp [stuffFrom_true_full h, counterFrom, h, ih]
  | case3 c x h ih => simp [stuffFrom_true_next h, counterFrom, h, ih]
  | case4 c x ih => simp [counterFrom, ih]

theorem stuff_append_of_counter_zero {x : Bits} (h : counterFrom 0 x = 0) (y : Bits) :
    stuff (x ++ y) = stuff x ++ stuff y := by
  rw [stuff, stuffFrom_append, h, stuff, stuff]

/-- A zero resets the counter. -/
theorem counterFrom_append_false (c : Nat) (z : Bits) : counterFrom c (z ++ [false]) = 0 := by
  fun_induction counterFrom c z with
  | case1 c => rfl
  | case2 c z h ih => simpa [counterFrom, h] using ih
  | case3 c z h ih => simpa [counterFrom, h] using ih
  | case4 c z ih => simpa [counterFrom] using ih

/-- Settles O12: the counter is 0 after the first piece; a run of five across the border is not seen by the pieces. -/
theorem stuffSplits : Obligations.StuffSplits := by
  unfold Obligations.StuffSplits
  refine ⟨fun x y h => ?_, ones 1, ones 4, by decide⟩
  obtain rfl | ⟨z, rfl⟩ := h
  · rfl
  · exact stuff_append_of_counter_zero (counterFrom_append_false 0 z) y

/-- Settles O13: STUFF splits before the five ones. -/
theorem stuffTrailingRun : Obligations.StuffTrailingRun := by
  unfold Obligations.StuffTrailingRun
  intro b h
  have hrun : stuff (ones 5) = ones 5 ++ [false] := rfl
  rw [stuff_append_of_counter_zero h, hrun, List.append_assoc]

/-! The length (R113 law 2). -/

/-- The exact length within a run: of the `n` ones counted so far, `n / 5` zeros have been written already. -/
theorem length_stuffFrom_onesRuns (n : Nat) (b : Bits) :
    (stuffFrom (n % stuffRun) b).length + n / stuffRun =
      b.length + ((onesRuns n b).map (fun r => r / stuffRun)).sum := by
  fun_induction onesRuns n b with
  | case1 n => simp
  | case2 n b ih =>
    by_cases h : n % stuffRun + 1 = stuffRun
    · have hmod : (n + 1) % stuffRun = 0 := by rw [stuffRun] at h ⊢; omega
      have hdiv : (n + 1) / stuffRun = n / stuffRun + 1 := by rw [stuffRun] at h ⊢; omega
      rw [hmod, hdiv] at ih
      rw [stuffFrom_true_full h, List.length_cons, List.length_cons, List.length_cons]
      omega
    · have hmod : (n + 1) % stuffRun = n % stuffRun + 1 := by rw [stuffRun] at h ⊢; omega
      have hdiv : (n + 1) / stuffRun = n / stuffRun := by rw [stuffRun] at h ⊢; omega
      rw [hmod, hdiv] at ih
      rw [stuffFrom_true_next h, List.length_cons, List.length_cons]
      omega
  | case3 n b ih =>
    rw [Nat.zero_mod, Nat.zero_div] at ih
    rw [stuffFrom_false, List.length_cons, List.length_cons, List.map_cons, List.sum_cons]
    omega

/-- Each inserted zero takes five ones, `c` of which may have been counted before. -/
theorem length_stuffFrom_le (c : Nat) (b : Bits) : 5 * (stuffFrom c b).length ≤ 6 * b.length + c := by
  fun_induction stuffFrom c b with
  | case1 c => simp
  | case2 c b h ih => simp only [stuffRun] at h; simp only [List.length_cons]; omega
  | case3 c b h ih => simp only [List.length_cons]; omega
  | case4 c b ih => simp only [List.length_cons]; omega

/-- Settles O9: the exact length with no ones counted yet; a zero for every five bits at most. -/
theorem stuffLength : Obligations.StuffLength := by
  unfold Obligations.StuffLength
  intro b
  have hle : 5 * (stuff b).length ≤ 6 * b.length := length_stuffFrom_le 0 b
  exact ⟨length_stuffFrom_onesRuns 0 b, length_le_stuffFrom b 0, by omega⟩

/-! The receiver (R113 law 4). -/

@[simp] theorem unstuffFrom_true (c : Nat) (b : Bits) :
    unstuffFrom c (true :: b) = true :: unstuffFrom (c + 1) b := rfl

theorem unstuffFrom_false_full (b : Bits) : unstuffFrom stuffRun (false :: b) = unstuffFrom 0 b := if_pos rfl

theorem unstuffFrom_false_next {c : Nat} (h : c ≠ stuffRun) (b : Bits) :
    unstuffFrom c (false :: b) = false :: unstuffFrom 0 b := by
  simp [unstuffFrom, h]

theorem unstuffFrom_stuffFrom {c : Nat} (hc : c < stuffRun) (b : Bits) : unstuffFrom c (stuffFrom c b) = b := by
  fun_induction stuffFrom c b with
  | case1 c => simp [unstuffFrom]
  | case2 c b h ih => rw [unstuffFrom_true, h, unstuffFrom_false_full, ih stuffRun_pos]
  | case3 c b h ih => rw [unstuffFrom_true, ih (by omega)]
  | case4 c b ih => rw [unstuffFrom_false_next hc.ne, ih stuffRun_pos]

/-- Settles O11: the receiver's counter is that of STUFF. -/
theorem unstuffStuff : Obligations.UnstuffStuff := by
  unfold Obligations.UnstuffStuff
  exact unstuffFrom_stuffFrom stuffRun_pos

/-! Where five ones in a row occur (R113 law 3, R114). -/

/-- No occurrence of `k` ones touches a shorter run of ones with a zero after it. -/
theorem ones_infix_run_false {n k : Nat} (h : n < k) (b : Bits) :
    ones k <:+: ones n ++ false :: b ↔ ones k <:+: b := by
  induction n with
  | zero =>
    obtain ⟨k, rfl⟩ := Nat.exists_eq_add_of_lt h
    simp [List.infix_cons_iff, ones_succ]
  | succ n ih =>
    have hpre : ¬ ones k <+: ones (n + 1) ++ false :: b := fun hp => by
      have := hp.getElem (i := n + 1) (by simpa using h)
      simp [ones] at this
    exact (List.infix_cons_iff.trans (or_iff_right hpre)).trans (ih (by omega))

theorem ones_not_infix_shorter {n k : Nat} (h : n < k) : ¬ ones k <:+: ones n := fun hi => by
  have := hi.length_le
  simp only [length_ones] at this
  omega

theorem ones_infix_full {c : Nat} (h : c + 1 = stuffRun) (b : Bits) : ones stuffRun <:+: ones c ++ true :: b := by
  rw [ones_append_true, h]
  exact (List.prefix_append _ _).isInfix

theorem stuffFrom_eq_self_iff {c : Nat} (hc : c < stuffRun) (b : Bits) :
    stuffFrom c b = b ↔ ¬ ones stuffRun <:+: ones c ++ b := by
  fun_induction stuffFrom c b with
  | case1 c => simpa using ones_not_infix_shorter hc
  | case2 c b h ih =>
    have hlonger : true :: false :: stuffFrom 0 b ≠ true :: b := fun he => by
      have := congrArg List.length he
      have := length_le_stuffFrom b 0
      simp only [List.length_cons] at *
      omega
    exact iff_of_false hlonger (not_not_intro (ones_infix_full h b))
  | case3 c b h ih => simpa [ones_append_true] using ih (by omega)
  | case4 c b ih => simpa [ones_infix_run_false hc] using ih stuffRun_pos

/-- STUFF neither makes nor removes a run of five ones. -/
theorem ones_infix_stuffFrom_iff {c : Nat} (hc : c < stuffRun) (b : Bits) :
    ones stuffRun <:+: ones c ++ stuffFrom c b ↔ ones stuffRun <:+: ones c ++ b := by
  fun_induction stuffFrom c b with
  | case1 c => rfl
  | case2 c b h ih => exact iff_of_true (ones_infix_full h _) (ones_infix_full h b)
  | case3 c b h ih => simpa only [ones_append_true] using ih (by omega)
  | case4 c b ih => simpa [ones_infix_run_false hc] using ih stuffRun_pos

/-- Settles O10: a zero is inserted as soon as the counter is full. -/
theorem stuffUnchanged : Obligations.StuffUnchanged := by
  unfold Obligations.StuffUnchanged
  exact stuffFrom_eq_self_iff stuffRun_pos

/-- Settles O14: the output of the first pass has a run of five ones exactly where its input has one. -/
theorem stuffTwice : Obligations.StuffTwice := by
  unfold Obligations.StuffTwice
  exact fun b => (stuffUnchanged (stuff b)).trans (not_congr (ones_infix_stuffFrom_iff stuffRun_pos b))

/-! What follows five ones in stuffed data (R113 law 1). -/

/-- Wherever a full run of ones occurs in `f`, a zero follows it. -/
def ZeroAfterRuns (f : Bits) : Prop :=
  ∀ x y : Bits, f = x ++ ones stuffRun ++ y → ∃ z, y = false :: z

theorem zeroAfterRuns_ones {n : Nat} (h : n < stuffRun) : ZeroAfterRuns (ones n) := fun x y hf =>
  absurd ⟨x, y, hf.symm⟩ (ones_not_infix_shorter h)

/-- Where at most `k` ones and a zero begin with `k` ones, that zero comes next. -/
theorem zero_after_prefix_ones {n k : Nat} (h : n ≤ k) {t y : Bits} (hf : ones n ++ false :: t = ones k ++ y) :
    y = false :: t := by
  induction n generalizing k with
  | zero =>
    cases k with
    | zero => exact hf.symm
    | succ k => cases hf
  | succ n ih =>
    cases k with
    | zero => cases h
    | succ k => exact ih (Nat.le_of_succ_le_succ h) (List.cons.inj hf).2

/-- A run of ones that is at most full, and the zero after it, may stand before such a sequence. -/
theorem zeroAfterRuns_run_false {n : Nat} (h : n ≤ stuffRun) {t : Bits} (ht : ZeroAfterRuns t) :
    ZeroAfterRuns (ones n ++ false :: t) := by
  induction n with
  | zero =>
    rintro (_ | ⟨a, x⟩) y hf
    · cases hf
    · exact ht x y (List.cons.inj hf).2
  | succ n ih =>
    rintro (_ | ⟨a, x⟩) y hf
    · exact ⟨t, zero_after_prefix_ones h hf⟩
    · exact ih (Nat.le_of_succ_le h) x y (List.cons.inj hf).2

theorem zeroAfterRuns_stuffFrom {c : Nat} (hc : c < stuffRun) (b : Bits) :
    ZeroAfterRuns (ones c ++ stuffFrom c b) := by
  fun_induction stuffFrom c b with
  | case1 c => simpa using zeroAfterRuns_ones hc
  | case2 c b h ih =>
    rw [ones_append_true]
    exact zeroAfterRuns_run_false h.le (ih stuffRun_pos)
  | case3 c b h ih =>
    rw [ones_append_true]
    exact ih (by omega)
  | case4 c b ih => exact zeroAfterRuns_run_false hc.le (ih stuffRun_pos)

/-- Settles O8: each run of ones in the output is at most full and ends with a zero, or is short and ends the output. -/
theorem stuffFiveOnesThenZero : Obligations.StuffFiveOnesThenZero := by
  unfold Obligations.StuffFiveOnesThenZero
  exact zeroAfterRuns_stuffFrom stuffRun_pos

end Sys2Proof.Machine
end

section
/-! PROOFS. The frame builder (43_frame_builder): the length of a frame (R121), where the flag occurs in it (R122), and
that a frame tells its payload. -/

namespace Sys2Proof.Machine

/-! The parts of a frame (R120). -/

/-- The flag is six ones between two zeros (R24). -/
theorem flag_eq : flag = false :: (ones 6 ++ [false]) := rfl

theorem build_eq_preamble_flag (cfg : Config) (p : List Byte) :
    build cfg p = List.replicate cfg.txDelay false ++ flag ++ (frameBody p ++ flag) := by
  rw [build, preamble, postamble, List.append_assoc]

/-- The zeros that bound the runs of ones: those of the two flags. -/
theorem build_eq_runs (cfg : Config) (p : List Byte) :
    build cfg p = List.replicate cfg.txDelay false ++ false :: (ones 6 ++ false ::
      (frameBody p ++ false :: (ones 6 ++ false :: []))) := by
  simp [build_eq_preamble_flag, flag_eq]

/-- Settles O18: the bodies are computed, and `tx_delay` stands in the preamble alone. -/
theorem frameVectors : Obligations.FrameVectors := by
  unfold Obligations.FrameVectors
  have hempty : frameBody [] = List.replicate 16 false := by decide +kernel
  have hbody : frameBody [0x88#8] = [false, false, false, true, false, false, false, true, false, false, false, true,
      true, true, false, false, false, false, false, true, true, true, true, true, false] := by decide +kernel
  constructor
  · intro cfg
    rw [build, hempty, preamble, postamble]
  · intro cfg
    rw [build, hbody, preamble, postamble]

/-! The length (R121). -/

theorem length_unpack_crc (p : List Byte) (c : BitVec 16) :
    (unpack (p ++ crcBytes c)).length = 8 * (p.length + 2) := by
  rw [length_unpack, List.length_append, length_crcBytes]

/-- The bounds of STUFF, for the body. -/
theorem length_frameBody_bounds (p : List Byte) :
    8 * (p.length + 2) ≤ (frameBody p).length ∧
      (frameBody p).length ≤ 8 * (p.length + 2) + 8 * (p.length + 2) / 5 := by
  obtain ⟨-, hge, hle⟩ := stuffLength (unpack (p ++ crcBytes (crc16 p)))
  rw [length_unpack_crc] at hge hle
  exact ⟨hge, hle⟩

/-- Settles O15: the body is bounded, and the templates add `tx_delay + 16` bits. -/
theorem frameLength : Obligations.FrameLength := by
  unfold Obligations.FrameLength
  intro cfg p
  obtain ⟨hge, hle⟩ := length_frameBody_bounds p
  rw [length_build]
  omega

/-! No two payloads have the same frame (R100, R113 law 4, R120). -/

theorem unpackByte_injective {a b : Byte} (h : unpackByte a = unpackByte b) : a = b := by
  apply BitVec.eq_of_getLsbD_eq
  intro k hk
  have hbit : (unpackByte a)[k]? = (unpackByte b)[k]? := by rw [h]
  rwa [getElem?_unpackByte a hk, getElem?_unpackByte b hk, Option.some.injEq] at hbit

theorem unpack_injective {d e : List Byte} (h : unpack d = unpack e) : d = e := by
  have hlen : d.length = e.length := by
    have := congrArg List.length h
    rw [length_unpack, length_unpack] at this
    omega
  induction d generalizing e with
  | nil => exact (List.length_eq_zero_iff.mp hlen.symm).symm
  | cons a d ih =>
    cases e with
    | nil => cases hlen
    | cons b e =>
      obtain ⟨hbyte, hrest⟩ := List.append_inj h rfl
      rw [unpackByte_injective hbyte, ih hrest (Nat.succ.inj hlen)]

theorem stuff_injective {b c : Bits} (h : stuff b = stuff c) : b = c := by
  rw [← unstuffStuff b, h, unstuffStuff c]

theorem frameBody_injective {p q : List Byte} (h : frameBody p = frameBody q) : p = q :=
  (List.append_inj' (unpack_injective (stuff_injective h)) rfl).1

/-- Settles O17: the templates are those of the configuration, and the body is read backwards. -/
theorem framesTellPayloadsApart : Obligations.FramesTellPayloadsApart := by
  unfold Obligations.FramesTellPayloadsApart
  intro cfg p q h
  exact frameBody_injective (List.append_cancel_left (List.append_cancel_right h))

/-! Where six ones in a row occur (R122). -/

theorem sixOnesAt_iff_prefix {f : Bits} {k : Nat} : sixOnesAt f k ↔ ones 6 <+: f.drop k :=
  eq_comm.trans List.prefix_iff_eq_take.symm

theorem ones_prefix_append_false (n : Nat) (g f : Bits) : ones n <+: g ++ false :: f ↔ ones n <+: g := by
  induction n generalizing g with
  | zero => simp
  | succ n ih =>
    cases g with
    | nil => simp [ones_succ]
    | cons x g => simp [ones_succ, ih]

theorem not_sixOnesAt_of_not_infix {f : Bits} (h : ¬ ones 6 <:+: f) (k : Nat) : ¬ sixOnesAt f k := fun hk =>
  h ((sixOnesAt_iff_prefix.mp hk).isInfix.trans (List.drop_suffix k f).isInfix)

theorem sixOnesAt_le_length {f : Bits} {k : Nat} (h : sixOnesAt f k) : k + 6 ≤ f.length := by
  have := (sixOnesAt_iff_prefix.mp h).length_le
  rw [length_ones, List.length_drop] at this
  omega

/-- A run of ones does not cross a zero: it lies before it or after it. -/
theorem sixOnesAt_append_false (g f : Bits) (k : Nat) :
    sixOnesAt (g ++ false :: f) k ↔ sixOnesAt g k ∨ ∃ j, k = g.length + 1 + j ∧ sixOnesAt f j := by
  obtain hk | hk := Nat.lt_or_ge g.length k
  · obtain ⟨j, rfl⟩ := Nat.exists_eq_add_of_le (Nat.succ_le_of_lt hk)
    have hbefore : ¬ sixOnesAt g (g.length + 1 + j) := fun h => by
      have := sixOnesAt_le_length h
      omega
    have hdrop : (g ++ false :: f).drop (g.length + 1 + j) = f.drop j := by
      rw [Nat.add_assoc, List.drop_length_add_append, Nat.add_comm 1 j, List.drop_succ_cons]
    rw [or_iff_right hbefore, sixOnesAt_iff_prefix, hdrop, ← sixOnesAt_iff_prefix]
    simp
  · have hafter : ¬ ∃ j, k = g.length + 1 + j ∧ sixOnesAt f j := by
      rintro ⟨j, rfl, -⟩
      omega
    rw [or_iff_left hafter, sixOnesAt_iff_prefix, sixOnesAt_iff_prefix, List.drop_append_of_le_length hk,
      ones_prefix_append_false]

theorem not_sixOnesAt_idle (n k : Nat) : ¬ sixOnesAt (List.replicate n false) k := by
  refine not_sixOnesAt_of_not_infix (fun h => ?_) k
  have : true ∈ List.replicate n false := h.subset (List.mem_cons_self)
  cases List.eq_of_mem_replicate this

/-- Five ones in the body are followed by a zero, so the body has no six in a row (R113 law 1). -/
theorem not_sixOnesAt_frameBody (p : List Byte) (k : Nat) : ¬ sixOnesAt (frameBody p) k := by
  refine not_sixOnesAt_of_not_infix (fun h => ?_) k
  obtain ⟨x, y, hxy⟩ := h
  have hrun : frameBody p = x ++ ones 5 ++ true :: y := by
    rw [← hxy, List.append_assoc, List.append_assoc, ones_append_true]
  obtain ⟨z, hz⟩ := stuffFiveOnesThenZero _ x (true :: y) hrun
  cases hz

theorem sixOnesAt_ones_iff (k : Nat) : sixOnesAt (ones 6) k ↔ k = 0 := by
  constructor
  · intro h
    have := sixOnesAt_le_length h
    rw [length_ones] at this
    omega
  · rintro rfl
    rfl

/-- Only the stretches of six ones between the zeros that bound them are left. -/
theorem sixOnesAt_build_iff (cfg : Config) (p : List Byte) (k : Nat) :
    sixOnesAt (build cfg p) k ↔ k = cfg.txDelay + 1 ∨ k + 7 = (build cfg p).length := by
  have hnil : ∀ j, ¬ sixOnesAt [] j := not_sixOnesAt_idle 0
  rw [length_build, build_eq_runs]
  simp only [sixOnesAt_append_false, not_sixOnesAt_idle, not_sixOnesAt_frameBody, sixOnesAt_ones_iff, hnil,
    List.length_replicate, length_ones, false_or, and_false, exists_false, or_false, exists_eq_right]
  constructor
  · rintro ⟨j, rfl, rfl | rfl⟩ <;> omega
  · rintro (rfl | hk)
    · exact ⟨0, rfl, .inl rfl⟩
    · exact ⟨_, by omega, .inr rfl⟩

/-! Where the flag occurs (R122). -/

theorem flagAt_iff_prefix {f : Bits} {k : Nat} : flagAt f k ↔ flag <+: f.drop k :=
  eq_comm.trans List.prefix_iff_eq_take.symm

theorem flagAt_append_flag (x y : Bits) : flagAt (x ++ flag ++ y) x.length := by
  rw [flagAt_iff_prefix, List.append_assoc, List.drop_left]
  exact List.prefix_append flag y

/-- The ones of a flag begin one bit after it does. -/
theorem sixOnesAt_of_flagAt {f : Bits} {k : Nat} (h : flagAt f k) : sixOnesAt f (k + 1) := by
  obtain ⟨y, hy⟩ := flagAt_iff_prefix.mp h
  rw [sixOnesAt_iff_prefix, ← List.drop_drop, ← hy, flag_eq]
  exact ⟨false :: y, rfl⟩

theorem flagAt_preamble (cfg : Config) (p : List Byte) : flagAt (build cfg p) cfg.txDelay := by
  have h := flagAt_append_flag (List.replicate cfg.txDelay false) (frameBody p ++ flag)
  rwa [← build_eq_preamble_flag, List.length_replicate] at h

theorem flagAt_postamble {cfg : Config} {p : List Byte} {k : Nat} (h : k + 8 = (build cfg p).length) :
    flagAt (build cfg p) k := by
  have hk : k = (preamble cfg ++ frameBody p).length := by
    rw [length_build] at h
    rw [List.length_append, length_preamble]
    omega
  have hflag := flagAt_append_flag (preamble cfg ++ frameBody p) []
  rwa [List.append_nil, ← hk] at hflag

theorem flagAt_build_iff (cfg : Config) (p : List Byte) (k : Nat) :
    flagAt (build cfg p) k ↔ k = cfg.txDelay ∨ k + 8 = (build cfg p).length := by
  constructor
  · intro h
    have := (sixOnesAt_build_iff cfg p (k + 1)).mp (sixOnesAt_of_flagAt h)
    omega
  · rintro (rfl | h)
    · exact flagAt_preamble cfg p
    · exact flagAt_postamble h

/-- Settles O16: the body has no six ones in a row, and no run of ones crosses a bound of a flag. -/
theorem flagOnlyAtBounds : Obligations.FlagOnlyAtBounds := by
  unfold Obligations.FlagOnlyAtBounds
  exact fun cfg p k => ⟨flagAt_build_iff cfg p k, sixOnesAt_build_iff cfg p k⟩

end Sys2Proof.Machine
end

section
/-! PROOFS. PRODUCE (44_produce): what it answers in each case, capacity 0, the bounds of one command, the order of
drain and pull, and that a run never stops. -/

namespace Sys2Proof.Machine

/-! What it answers, case by case. -/

/-- Settles O20: the inert response reports the recorded cause (R150). -/
theorem produceWhileFaulted : Obligations.ProduceWhileFaulted := by
  unfold Obligations.ProduceWhileFaulted
  intro imm s h
  have hresp : respond 0 { s with ann := [] } =
      { s with ann := [], rsp := some (rspWord s.fcode true (!s.backlog.isEmpty) 0#28) } := by
    simp [respond, draining_eq, h]
  exact (execProduce_inert imm h).trans (congrArg _ hresp)

/-- Settles O21, by the drain phase that stops. -/
theorem produceStopsAtFrame : Obligations.ProduceStopsAtFrame := by
  unfold Obligations.ProduceStopsAtFrame
  exact fun _ _ _ _ _ hf hb hle hno => execProduce_stops hf hb hle hno

/-- Settles O22: a drained PRODUCE fetches nothing. -/
theorem produceFindsNone : Obligations.ProduceFindsNone := by
  unfold Obligations.ProduceFindsNone
  exact fun _ _ hf hle hs => execProduce_of_fetch hf hle (fetch_none _ _ hs)

/-- Settles O23: a drained PRODUCE fetches a frame that fits behind the backlog. -/
theorem produceEmits : Obligations.ProduceEmits := by
  unfold Obligations.ProduceEmits
  intro imm s hint p rest hf hs hp hfit
  have hle : s.backlog.flatten.length ≤ capacity imm := Nat.le_of_add_right_le hfit
  exact execProduce_of_fetch hf hle (fetch_emits hs hp (Nat.le_sub_of_add_le' hfit))

/-- Settles O24: a drained PRODUCE fetches a frame that does not fit behind the backlog. -/
theorem produceQueues : Obligations.ProduceQueues := by
  unfold Obligations.ProduceQueues
  intro imm s hint p rest hf hs hp hle hno
  exact execProduce_of_fetch hf hle (fetch_queues hs hp (Nat.sub_lt_left_of_lt_add hle hno))

/-! Capacity 0 (R151). -/

/-- The recorded cause of a block that is not faulted (R180). -/
theorem Invariant.fcode_eq_zero {s : State} (h : Invariant s) (hf : s.fault = false) : s.fcode = 0b00#2 := by
  obtain ⟨-, hc⟩ | ⟨ht, -⟩ := h.cause
  · exact hc
  · simp [hf] at ht

/-- A PRODUCE that emits nothing writes no cell; its response is DRAINING alone. -/
theorem emitted_nil {s : State} (h : Invariant s) (hf : s.fault = false) (bl : List Frame) (src : List Item) :
    s.emitted [] bl src = { s with
      backlog := bl, src := src, ann := [], rsp := some (if bl = [] then 0x00000000#32 else 0x10000000#32) } := by
  cases bl <;> simp [State.emitted, h.fcode_eq_zero hf, hf, rspWord, Egress.write, setCells]

/-- A frame has bits (R121). -/
theorem IsFrame.length_pos {cfg : Config} {f : Frame} (h : IsFrame cfg f) : 0 < f.length :=
  Nat.lt_of_lt_of_le (Nat.succ_pos _) h.length_ge

/-- Settles O27: no frame fits in no bits, and nothing is emitted in each case. -/
theorem produceZero : Obligations.ProduceZero := by
  unfold Obligations.ProduceZero
  intro s hi hf
  refine ⟨fun hb => ?_, fun hb hs => ?_, fun hint p rest hb hs hp => ?_⟩
  · obtain ⟨f, gs, hfg⟩ := List.exists_cons_of_ne_nil hb
    have hpos := (hi.frames f (by simp [hfg])).length_pos
    refine (produceStopsAtFrame 0#28 s [] gs f hf hfg (Nat.zero_le _) hpos).trans ?_
    simp [emitted_nil hi hf, ← hfg, hb]
  · refine (produceFindsNone 0#28 s hf (by simp [hb]) hs).trans ?_
    simp [hb, emitted_nil hi hf, ← hs]
  · have hpos : 0 < (build s.cfg p).length := IsFrame.length_pos ⟨p, hp, rfl⟩
    refine (produceQueues 0#28 s hint p rest hf hs hp (by simp [hb]) ?_).trans ?_
    · simpa [hb, capacity_eq] using hpos
    · simp [hb, emitted_nil hi hf]

/-! The bounds of one command (R147). -/

/-- An annotation lies inside the bits that the annotations make up. -/
theorem contiguous_bounds {cfg : Config} {off : Nat} {as : List Annotation} (h : contiguous cfg off as) :
    ∀ a ∈ as, cfg.txDelay + 32 ≤ a.length ∧ a.offset + a.length ≤ off + (as.map Annotation.length).sum := by
  induction as generalizing off with
  | nil => simp
  | cons b as ih =>
    obtain ⟨hoff, -, -, hlen, hrest⟩ := h
    rw [List.map_cons, List.sum_cons]
    intro a ha
    rcases List.mem_cons.mp ha with rfl | ha
    · exact ⟨hlen, by omega⟩
    · obtain ⟨hge, hle⟩ := ih hrest a ha
      exact ⟨hge, by omega⟩

/-- Settles O28: the invariant after the command bounds what it holds, and N is the annotated length. -/
theorem produceBounds : Obligations.ProduceBounds := by
  unfold Obligations.ProduceBounds
  intro imm s t r hi h hr
  have ht := exec_keeps_invariant hi h
  obtain ⟨n, hn⟩ := exec_respondsWith h
  have hN : rspN r = n := by
    obtain rfl := Option.some.inj (hn.word.symm.trans hr)
    exact rspN_rspWord _ _ _ _
  refine ⟨hN ▸ hn.bound imm rfl, ht.annCount, ht.depth, fun a ha => ?_, fun f gs hf hb hno => ?_⟩
  · have hbounds := contiguous_bounds ht.annPlace a ha
    rwa [(exec_cfg_refused h).1, Nat.zero_add, ← hn.frames, ← hN] at hbounds
  · have hstop := produceStopsAtFrame imm s [] gs f hf hb (Nat.zero_le _) hno
    obtain rfl := Host.Outcome.next.inj (h.symm.trans hstop)
    exact ⟨rspN_of_emitted (imm := imm) (Nat.zero_le _) hr, rfl⟩

/-! The order of drain and pull (R148, R153). -/

/-- A drain phase that stopped at `f` behind `ds` has emitted all front frames that fit together. -/
theorem prefix_of_fits {l ds es gs : List Frame} {f : Frame} {cap : Nat} (hl : l = ds ++ f :: gs)
    (hno : cap - ds.flatten.length < f.length) (hes : es <+: l) (hle : es.flatten.length ≤ cap) : es <+: ds := by
  have hds : ds <+: l := ⟨f :: gs, hl.symm⟩
  have hdf : ds ++ [f] <+: l := ⟨gs, by simp [hl]⟩
  by_cases hlen : es.length ≤ ds.length
  · exact List.prefix_of_prefix_length_le hes hds hlen
  · have hpre : ds ++ [f] <+: es := List.prefix_of_prefix_length_le hdf hes (by simp; omega)
    have := hpre.flatten.length_le
    rw [length_flatten_concat] at this
    omega

/-- A PRODUCE without a fault emits the front frames of the backlog that fit together, before any other. -/
theorem execProduce_emits_front {s t : State} {imm : BitVec 28} {es : List Frame}
    (h : execProduce imm s = .next t) (hf : t.fault = false) (hes : es <+: s.backlog)
    (hle : es.flatten.length ≤ capacity imm) :
    ∃ fs bl src, es <+: fs ∧ fs.flatten.length ≤ capacity imm ∧ t = s.emitted fs bl src := by
  obtain ⟨hs, rfl⟩ | ⟨-, ds, f, gs, hb, hcap, hno, rfl⟩ | ⟨-, hcap, ⟨-, rfl⟩ | ⟨rest, -, rfl⟩ |
    ⟨hint, p, rest, -, -, rfl⟩ | ⟨hint, p, rest, -, -, hfit, rfl⟩ | ⟨hint, p, rest, -, -, -, rfl⟩⟩ :=
    execProduce_cases h
  · simp [hs] at hf
  · exact ⟨_, _, _, prefix_of_fits hb hno hes hle, hcap, rfl⟩
  · exact ⟨_, _, _, hes, hcap, rfl⟩
  · simp at hf
  · simp at hf
  · exact ⟨_, _, _, hes.trans (List.prefix_append _ _), hfit, rfl⟩
  · exact ⟨_, _, _, hes, hcap, rfl⟩

/-- Only a PRODUCE of a live block whose whole backlog fits touches the source (R143). -/
theorem drained_of_src_ne {s t : State} {imm : BitVec 28} (h : execProduce imm s = .next t) (hne : t.src ≠ s.src) :
    s.fault = false ∧ s.backlog.flatten.length ≤ capacity imm := by
  obtain ⟨-, rfl⟩ | ⟨-, ds, f, gs, -, -, -, rfl⟩ | ⟨hf, hle, -⟩ := execProduce_cases h
  · exact absurd rfl hne
  · exact absurd rfl hne
  · exact ⟨hf, hle⟩

/-- Settles O33: the source changes in the fetch phase alone, and the backlog is then the front that fits. -/
theorem pullAfterDrain : Obligations.PullAfterDrain := by
  unfold Obligations.PullAfterDrain
  intro imm s t h hne
  obtain ⟨hf, hle⟩ := drained_of_src_ne h hne
  obtain ⟨-, -, -, -, -, hsrc⟩ := produceFrame imm s t h
  obtain ⟨item, hitem⟩ := hsrc.resolve_left hne
  refine ⟨hf, hle, item, hitem, fun ht => ?_⟩
  obtain ⟨fs, bl, src, ⟨gs, rfl⟩, hcap, rfl⟩ := execProduce_emits_front h ht List.prefix_rfl hle
  exact ⟨gs.flatten, by rw [returned_emitted hcap, List.flatten_append]⟩

/-- Settles O34: the first queued frame is a front that fits. -/
theorem queuedFrameLeaves : Obligations.QueuedFrameLeaves := by
  unfold Obligations.QueuedFrameLeaves
  intro imm s t f gs _ hb hle h ht
  obtain ⟨fs, bl, src, ⟨hs, rfl⟩, hcap, rfl⟩ :=
    execProduce_emits_front (es := [f]) h ht ⟨gs, hb.symm⟩ (by simpa using hle)
  exact ⟨⟨hs.flatten, returned_emitted hcap⟩, _, rfl⟩

/-! Runs never stop (R149). -/

/-- Every step ends in a next state, whatever the move. -/
theorem step_next (s : State) : ∃ t, step s = .next t := by
  match hh : s.host with
  | [] => exact ⟨_, step_idle hh⟩
  | .append item :: rest => exact ⟨_, step_append hh⟩
  | .supply cells :: rest => exact ⟨_, step_supply hh⟩
  | .command w :: rest =>
    cases hd : decode w with
    | error r => exact ⟨_, step_reserved hh hd⟩
    | ok i =>
      rw [step_command hh hd]
      exact exec_next i _

/-- Settles O48, by induction on the number of steps. -/
theorem runNeverStops : Obligations.RunNeverStops := by
  unfold Obligations.RunNeverStops
  intro k s
  induction k generalizing s with
  | zero => exact ⟨s, run_zero s⟩
  | succ k ih =>
    obtain ⟨u, hs⟩ := step_next s
    rw [run_succ hs]
    exact ih u

end Sys2Proof.Machine
end

section
/-! PROOFS. RESET (45_control). -/

namespace Sys2Proof.Machine

/-- A block that queues nothing is IDLE (R29). -/
theorem sched_of_backlog_nil {s : State} (h : s.backlog = []) : s.sched = .idle := if_pos h

/-- The command RESET is the word of R74. -/
theorem encode_reset : encode .reset = resetWord := rfl

/-- Settles O39: the whole-state equation of RESET, the empty backlog it leaves, and its encoding. -/
theorem resetResult : Obligations.ResetResult := by
  unfold Obligations.ResetResult
  refine ⟨execReset_eq, fun s => ⟨_, execReset_eq s, sched_of_backlog_nil rfl⟩, fun w => ?_⟩
  calc decode w = .ok .reset
      ↔ resetWord = w := by rw [decode_eq_ok_iff, encode_reset]
    _ ↔ w = resetWord := eq_comm

end Sys2Proof.Machine
end

section
/-! PROOFS. Exceptions (60_exceptions): fault entry, its causes, the cells it leaves unspecified, and that a fault
stays until a RESET. -/

namespace Sys2Proof.Machine

/-! Fault entry (R180, R183). -/

/-- A payload is over the limit when the limit is bounded and the payload has more bytes (R180). -/
theorem tooLong_iff {cfg : Config} {p : List Byte} :
    tooLong cfg p = true ↔ ∃ m, cfg.maxPayloadBytes = some m ∧ m < p.length := by
  cases h : cfg.maxPayloadBytes <;> simp [tooLong, h]

theorem rspWord_malformed : rspWord codeMalformed true false 0#28 = 0x60000000#32 := by decide

theorem rspWord_tooLong : rspWord codeTooLong true false 0#28 = 0xA0000000#32 := by decide

/-- Settles O25: a drained PRODUCE fetches the malformed item. -/
theorem produceMalformed : Obligations.ProduceMalformed := by
  unfold Obligations.ProduceMalformed
  intro imm s rest hf hle hs
  rw [← rspWord_malformed]
  exact execProduce_of_fetch hf hle (fetch_malformed _ _ hs)

/-- Settles O26: a drained PRODUCE fetches the payload over the limit. -/
theorem produceTooLong : Obligations.ProduceTooLong := by
  unfold Obligations.ProduceTooLong
  intro imm s hint p rest m hf hle hs hm hlt
  rw [← rspWord_tooLong]
  exact execProduce_of_fetch hf hle (fetch_tooLong _ _ hs (tooLong_iff.mpr ⟨m, hm, hlt⟩))

/-- A PRODUCE that raises a fault has drained the backlog, and the item it pulled names the code (R180, R182). -/
theorem execProduce_faulted {s t : State} {imm : BitVec 28} (h : execProduce imm s = .next t)
    (hs : s.fault = false) (ht : t.fault = true) :
    s.backlog.flatten.length ≤ capacity imm ∧ ∃ item rest code,
      s.src = item :: rest ∧ t = s.faulted code (capacity imm) rest ∧
      ((item = .malformed ∧ code = codeMalformed) ∨
        ∃ hint p, item = .blob hint p ∧ tooLong s.cfg p = true ∧ code = codeTooLong) := by
  obtain ⟨hf, -⟩ | ⟨-, ds, f, gs, -, -, -, rfl⟩ | ⟨-, hle, ⟨-, rfl⟩ | ⟨rest, hsrc, rfl⟩ |
    ⟨hint, p, rest, hsrc, hp, rfl⟩ | ⟨hint, p, rest, -, -, -, rfl⟩ | ⟨hint, p, rest, -, -, -, rfl⟩⟩ :=
    execProduce_cases h
  · simp [hs] at hf
  · simp [hs] at ht
  · simp [hs] at ht
  · exact ⟨hle, _, rest, _, hsrc, rfl, .inl ⟨rfl, rfl⟩⟩
  · exact ⟨hle, _, rest, _, hsrc, rfl, .inr ⟨hint, p, rfl, hp, rfl⟩⟩
  · simp [hs] at ht
  · simp [hs] at ht

/-- Settles O30: fault entry leaves a free value in each cell below the capacity. -/
theorem abortedCellsFree : Obligations.AbortedCellsFree := by
  unfold Obligations.AbortedCellsFree
  intro imm s t h hs ht k hk
  obtain ⟨-, _, rest, code, -, rfl, -⟩ := execProduce_faulted h hs ht
  exact read_abort_inside s.out s.aborts _ k hk

/-- Settles O35: RESET clears FAULT, and a PRODUCE raises it from the item it pulled. -/
theorem faultCauses : Obligations.FaultCauses := by
  unfold Obligations.FaultCauses
  intro i s t h hs ht
  cases i with
  | reset =>
    obtain rfl := Host.Outcome.next.inj h
    cases ht
  | produce imm =>
    obtain ⟨hle, item, rest, code, hsrc, rfl, hcause⟩ := execProduce_faulted h hs ht
    refine ⟨imm, item, rest, rfl, hle, hsrc, rfl, rfl, hcause.imp_right ?_⟩
    rintro ⟨hint, p, hitem, hp, hcode⟩
    obtain ⟨m, hm, hlt⟩ := tooLong_iff.mp hp
    exact ⟨hint, p, m, hitem, hm, hlt, hcode⟩

/-! A fault stays until a RESET (R185). -/

/-- What a faulted block keeps: the recorded cause, the backlog, and every item of the source, which may grow (R150,
R185). -/
structure FaultKept (s t : State) : Prop where
  cause : t.fcode = s.fcode
  backlog : t.backlog = s.backlog
  source : s.src <+: t.src

theorem FaultKept.refl (s : State) : FaultKept s s := ⟨rfl, rfl, List.prefix_rfl⟩

theorem FaultKept.trans {s u t : State} (h : FaultKept s u) (h' : FaultKept u t) : FaultKept s t :=
  ⟨h'.cause.trans h.cause, h'.backlog.trans h.backlog, h.source.trans h'.source⟩

/-- An inert PRODUCE returns no bits (R150). -/
theorem returned_inert (s : State) : (respond 0 { s with ann := [] }).returned = [] :=
  returned_of_rspN_zero rfl (rspN_rspWord _ _ _ _)

/-- A step of a faulted block that is not a RESET keeps what the block holds and returns no bits. -/
theorem step_faultKept {s u : State} {k : Nat} (hs : step s = .next u) (hno : s.noReset (k + 1))
    (hf : s.fault = true) : FaultKept s u ∧ stepOutput s u = [] := by
  obtain ⟨hh, rfl⟩ | ⟨w, rest, i, hh, hd, he⟩ | ⟨w, rest, r, hh, -, rfl⟩ | ⟨item, rest, hh, rfl⟩ |
    ⟨cells, rest, hh, rfl⟩ := step_cases hs
  · exact ⟨.refl u, by simp [stepOutput, hh]⟩
  · obtain ⟨imm, rfl⟩ := produce_of_noReset hno hh hd
    obtain rfl := Host.Outcome.next.inj (he.symm.trans (execProduce_inert imm hf))
    exact ⟨⟨rfl, rfl, List.prefix_rfl⟩, (stepOutput_command hh).trans (returned_inert _)⟩
  · exact ⟨⟨rfl, rfl, List.prefix_rfl⟩, stepOutput_command hh⟩
  · exact ⟨⟨rfl, rfl, List.prefix_append _ _⟩, by simp [stepOutput, hh]⟩
  · exact ⟨⟨rfl, rfl, List.prefix_rfl⟩, by simp [stepOutput, hh]⟩

theorem run_faultKept {s t : State} {k : Nat} (hr : core.run k s = .next t) (hno : s.noReset k)
    (hf : s.fault = true) : FaultKept s t ∧ runOutput k s = [] := by
  induction k generalizing s with
  | zero =>
    obtain rfl := Host.Outcome.next.inj hr
    exact ⟨.refl s, rfl⟩
  | succ k ih =>
    obtain ⟨u, hs, hr⟩ := run_succ_next hr
    obtain ⟨hsu, hout⟩ := step_faultKept hs hno hf
    obtain ⟨hut, houts⟩ := ih hr (noReset_of_step hno hs) (step_keeps_fault hs hno hf)
    exact ⟨hsu.trans hut, by rw [runOutput_succ hs, hout, houts, List.append_nil]⟩

/-- Settles O51, by induction over the run. -/
theorem faultStays : Obligations.FaultStays := by
  unfold Obligations.FaultStays
  intro k s t hf hno hr
  obtain ⟨⟨hcause, hbacklog, new, hsrc⟩, hout⟩ := run_faultKept hr hno hf
  exact ⟨run_keeps_fault hr hno hf, hcause, hbacklog, ⟨new, hsrc.symm⟩, hout⟩

end Sys2Proof.Machine
end

section
/-! PROOFS. Reset and hazards (70_reset_and_hazards): RESET as construction (R201), the payloads a capacity can carry
and capacity starvation (R204). -/

namespace Sys2Proof.Machine

/-! RESET as construction (R201). -/

/-- Settles O40: the fields a RESET sets are those of construction, whatever they were before. -/
theorem resetIsConstruction : Obligations.ResetIsConstruction := by
  unfold Obligations.ResetIsConstruction
  intro s t h
  obtain rfl := Host.Outcome.next.inj ((execReset_eq s).symm.trans h)
  exact ⟨rfl, rfl, rfl, rfl, execReset_eq _⟩

/-! The payloads a capacity can carry (R204, R124). -/

/-- A payload that passes the length check is within a bounded limit (R180). -/
theorem length_le_of_not_tooLong {cfg : Config} {p : List Byte} {m : Nat} (hm : cfg.maxPayloadBytes = some m)
    (hp : tooLong cfg p = false) : p.length ≤ m := by
  refine Nat.not_lt.mp fun hlt => ?_
  rw [tooLong_iff.mpr ⟨m, hm, hlt⟩] at hp
  cases hp

/-- Settles O19, by the bounds of R121: maximal stuffing for what fits, no stuffing for what does not. -/
theorem carriablePayloads : Obligations.CarriablePayloads := by
  unfold Obligations.CarriablePayloads
  refine ⟨fun cfg p hdelay hlt => ?_, fun cfg p hge => ?_, fun cfg p m hm hp => ?_⟩
  · obtain ⟨-, hle, -⟩ := frameLength cfg p
    omega
  · obtain ⟨hlen, -, -⟩ := frameLength cfg p
    omega
  · obtain ⟨-, hle, -⟩ := frameLength cfg p
    have hpm := length_le_of_not_tooLong hm hp
    omega

/-! Capacity starvation (R204). -/

/-- Among the next `k` moves every command is a PRODUCE that offers fewer than `n` bits. -/
def State.offersLess (k n : Nat) (s : State) : Prop :=
  ∀ w, HostMove.command w ∈ s.host.take k → ∃ imm, decode w = .ok (.produce imm) ∧ capacity imm < n

theorem produce_of_offersLess {s : State} {k n : Nat} {w : Word} {rest : List HostMove}
    (h : s.offersLess (k + 1) n) (hh : s.host = .command w :: rest) :
    ∃ imm, decode w = .ok (.produce imm) ∧ capacity imm < n :=
  h w (by simp [hh])

/-- After a step the moves to come offer as little for one step less. -/
theorem offersLess_of_step {s u : State} {k n : Nat} (h : s.offersLess (k + 1) n) (hs : step s = .next u) :
    u.offersLess k n := by
  intro w hw
  rw [step_host hs] at hw
  exact h w (List.mem_of_mem_tail (by rwa [List.tail_take_eq_take_tail, Nat.add_sub_cancel]))

/-- A PRODUCE that offers less than the first queued frame only responds (R142). -/
theorem step_starved_command {s : State} {f : Frame} {gs : List Frame} {w : Word} {rest : List HostMove}
    {imm : BitVec 28} (hf : s.fault = false) (hb : s.backlog = f :: gs) (hh : s.host = .command w :: rest)
    (hd : decode w = .ok (.produce imm)) (hcap : capacity imm < f.length) :
    step s = .next ((s.accept rest).emitted [] s.backlog s.src) := by
  rw [step_command hh hd, hb]
  exact produceStopsAtFrame imm (s.accept rest) [] gs f hf hb (Nat.zero_le _) hcap

/-- A step of a starved block keeps what a faulted one keeps, but raises no fault, and returns no bits. -/
theorem step_starved {s u : State} {f : Frame} {gs : List Frame} {k : Nat} (hs : step s = .next u)
    (hf : s.fault = false) (hb : s.backlog = f :: gs) (hless : s.offersLess (k + 1) f.length) :
    FaultKept s u ∧ u.fault = false ∧ stepOutput s u = [] := by
  match hh : s.host with
  | [] =>
    obtain rfl := Host.Outcome.next.inj ((step_idle hh).symm.trans hs)
    exact ⟨.refl s, hf, by simp [stepOutput, hh]⟩
  | .command w :: rest =>
    obtain ⟨imm, hd, hcap⟩ := produce_of_offersLess hless hh
    obtain rfl := Host.Outcome.next.inj ((step_starved_command hf hb hh hd hcap).symm.trans hs)
    have hout := returned_emitted (s := s.accept rest) (bl := s.backlog) (src := s.src) (fs := []) (imm := imm)
      (Nat.zero_le _)
    exact ⟨⟨rfl, rfl, List.prefix_rfl⟩, hf, (stepOutput_command hh).trans hout⟩
  | .append item :: rest =>
    obtain rfl := Host.Outcome.next.inj ((step_append hh).symm.trans hs)
    exact ⟨⟨rfl, rfl, List.prefix_append _ _⟩, hf, by simp [stepOutput, hh]⟩
  | .supply cells :: rest =>
    obtain rfl := Host.Outcome.next.inj ((step_supply hh).symm.trans hs)
    exact ⟨⟨rfl, rfl, List.prefix_rfl⟩, hf, by simp [stepOutput, hh]⟩

theorem run_starved {s t : State} {f : Frame} {gs : List Frame} {k : Nat} (hr : core.run k s = .next t)
    (hf : s.fault = false) (hb : s.backlog = f :: gs) (hless : s.offersLess k f.length) :
    FaultKept s t ∧ t.fault = false ∧ runOutput k s = [] := by
  induction k generalizing s with
  | zero =>
    obtain rfl := Host.Outcome.next.inj hr
    exact ⟨.refl s, hf, rfl⟩
  | succ k ih =>
    obtain ⟨u, hs, hr⟩ := run_succ_next hr
    obtain ⟨hsu, hfu, hout⟩ := step_starved hs hf hb hless
    obtain ⟨hut, hft, houts⟩ := ih hr hfu (hsu.backlog.trans hb) (offersLess_of_step hless hs)
    exact ⟨hsu.trans hut, hft, by rw [runOutput_succ hs, hout, houts, List.append_nil]⟩

/-- Settles O53, by induction over the run: no step changes the first queued frame, so the next one starves too. -/
theorem runStarves : Obligations.RunStarves := by
  unfold Obligations.RunStarves
  intro k s t f gs hf hb hless hr
  obtain ⟨⟨-, hbacklog, new, hsrc⟩, hft, hout⟩ := run_starved hr hf hb hless
  exact ⟨hbacklog, hft, hout, new, hsrc.symm⟩

end Sys2Proof.Machine
end
